-- ==== Sys2Proof/Word.lean ====
section
/-!
DEFINITION. The word types of the machine (00_scope R6, R9, R10): bytes, 16-bit words, and the indexes of the
register file and of the keypad. Everything else that could be shown wrong by a test stands in Decode.lean or under Machine/.
-/
namespace Sys2Proof

/-- An 8-bit value: a register, a memory byte, a timer (R6). -/
abbrev Byte := BitVec 8

/-- A 16-bit value: an opcode, `I`, `pc`, a call stack entry (R6). -/
abbrev Word := BitVec 16

/-- The number of a register, 0..15 (R20). -/
abbrev RegIdx := Fin 16

/-- A keypad code, 0x0..0xF (R32). -/
abbrev KeyCode := Fin 16

end Sys2Proof
end

