-- ==== Sys2Proof/Syntax.lean ====
section
/-!
DEFINITION. The 34 instructions, one constructor for each row of the opcode table in its order (30_encoding R95).
Operands are the fields of R93 at exactly the width the encoding gives them.
-/
namespace Sys2Proof

/-- An instruction with its operand fields (R93, R95). -/
inductive Instr where
  /-- `00E0`, CLS (R164). -/
  | cls
  /-- `00EE`, RET (R111). -/
  | ret
  /-- `1nnn`, JP nnn (R112). -/
  | jp (nnn : BitVec 12)
  /-- `2nnn`, CALL nnn (R113). -/
  | call (nnn : BitVec 12)
  /-- `3xkk`, SE Vx, kk (R121). -/
  | seImm (x : RegIdx) (kk : Byte)
  /-- `4xkk`, SNE Vx, kk (R122). -/
  | sneImm (x : RegIdx) (kk : Byte)
  /-- `5xy0`, SE Vx, Vy (R123). -/
  | seReg (x y : RegIdx)
  /-- `6xkk`, LD Vx, kk (R131). -/
  | ldImm (x : RegIdx) (kk : Byte)
  /-- `7xkk`, ADD Vx, kk (R132). -/
  | addImm (x : RegIdx) (kk : Byte)
  /-- `8xy0`, LD Vx, Vy (R133). -/
  | ldReg (x y : RegIdx)
  /-- `8xy1`, OR Vx, Vy (R134). -/
  | orReg (x y : RegIdx)
  /-- `8xy2`, AND Vx, Vy (R135). -/
  | andReg (x y : RegIdx)
  /-- `8xy3`, XOR Vx, Vy (R136). -/
  | xorReg (x y : RegIdx)
  /-- `8xy4`, ADD Vx, Vy (R137). -/
  | addReg (x y : RegIdx)
  /-- `8xy5`, SUB Vx, Vy (R138). -/
  | subReg (x y : RegIdx)
  /-- `8xy6`, SHR Vx; the field `y` is decoded and not used (R139, R99). -/
  | shr (x y : RegIdx)
  /-- `8xy7`, SUBN Vx, Vy (R140). -/
  | subnReg (x y : RegIdx)
  /-- `8xyE`, SHL Vx; the field `y` is decoded and not used (R141, R99). -/
  | shl (x y : RegIdx)
  /-- `9xy0`, SNE Vx, Vy (R124). -/
  | sneReg (x y : RegIdx)
  /-- `Annn`, LD I, nnn (R151). -/
  | ldI (nnn : BitVec 12)
  /-- `Bnnn`, JP V0, nnn (R114). -/
  | jpV0 (nnn : BitVec 12)
  /-- `Cxkk`, RND Vx, kk (R142). -/
  | rnd (x : RegIdx) (kk : Byte)
  /-- `Dxyn`, DRW Vx, Vy, n; `n` is the number of sprite rows, 0..15 (R165). -/
  | drw (x y : RegIdx) (n : Fin 16)
  /-- `Ex9E`, SKP Vx (R182). -/
  | skp (x : RegIdx)
  /-- `ExA1`, SKNP Vx (R183). -/
  | sknp (x : RegIdx)
  /-- `Fx07`, LD Vx, DT (R185). -/
  | ldFromDT (x : RegIdx)
  /-- `Fx0A`, LD Vx, K (R184). -/
  | ldKey (x : RegIdx)
  /-- `Fx15`, LD DT, Vx (R186). -/
  | ldDT (x : RegIdx)
  /-- `Fx18`, LD ST, Vx (R187). -/
  | ldST (x : RegIdx)
  /-- `Fx1E`, ADD I, Vx (R152). -/
  | addI (x : RegIdx)
  /-- `Fx29`, LD F, Vx (R153). -/
  | ldF (x : RegIdx)
  /-- `Fx33`, LD B, Vx (R154). -/
  | ldB (x : RegIdx)
  /-- `Fx55`, LD [I], Vx (R155). -/
  | storeRegs (x : RegIdx)
  /-- `Fx65`, LD Vx, [I] (R156). -/
  | loadRegs (x : RegIdx)
  deriving DecidableEq, Repr

end Sys2Proof
end

