-- ==== Sys2Proof/Decode.lean ====
section
/-!
DEFINITION. The decoder (30_encoding R92, R93, R100), total on every word and on every list of bytes, rejecting by name, and
after it the encoder, written from the encodings of R94 and R95.
-/
namespace Sys2Proof

/-- Why bytes are no instruction. -/
inductive Reject where
  /-- The word matches no row of the opcode table (R96). Safe: the step that meets it is R97's reported no-op. -/
  | unknownOpcode (op : Word)
  /-- Fewer than the two bytes of an instruction (R92). Safe: a fetch always supplies two. -/
  | tooFewBytes
  deriving DecidableEq, Repr

/-- `t`, nibble 1: the major opcode, `op[15:12]` (R93). -/
def fieldT (op : Word) : BitVec 4 := op.extractLsb' 12 4

/-- `x`, nibble 2: `op[11:8]` (R93). -/
def fieldX (op : Word) : RegIdx := (op.extractLsb' 8 4).toFin

/-- `y`, nibble 3: `op[7:4]` (R93). -/
def fieldY (op : Word) : RegIdx := (op.extractLsb' 4 4).toFin

/-- Nibble 4: `op[3:0]` (R93), a minor opcode in the groups 5, 8 and 9. -/
def fieldLow (op : Word) : BitVec 4 := op.extractLsb' 0 4

/-- `n`, nibble 4 as a number of sprite rows (R93). -/
def fieldN (op : Word) : Fin 16 := (op.extractLsb' 0 4).toFin

/-- `kk`: `op[7:0]` (R93), an immediate byte, or a minor opcode in the groups E and F. -/
def fieldKK (op : Word) : Byte := op.extractLsb' 0 8

/-- `nnn`: `op[11:0]` (R93). -/
def fieldNNN (op : Word) : BitVec 12 := op.extractLsb' 0 12

/-- Group 0 (R100): both words are fixed in all 16 bits. -/
def decodeGroup0 (op : Word) : Except Reject Instr :=
  if op = 0x00E0#16 then .ok .cls
  else if op = 0x00EE#16 then .ok .ret
  else .error (.unknownOpcode op)

/-- Group 8 (R100), by the low nibble. -/
def decodeGroup8 (op : Word) : Except Reject Instr :=
  match fieldLow op with
  | 0x0#4 => .ok (.ldReg (fieldX op) (fieldY op))
  | 0x1#4 => .ok (.orReg (fieldX op) (fieldY op))
  | 0x2#4 => .ok (.andReg (fieldX op) (fieldY op))
  | 0x3#4 => .ok (.xorReg (fieldX op) (fieldY op))
  | 0x4#4 => .ok (.addReg (fieldX op) (fieldY op))
  | 0x5#4 => .ok (.subReg (fieldX op) (fieldY op))
  | 0x6#4 => .ok (.shr (fieldX op) (fieldY op))
  | 0x7#4 => .ok (.subnReg (fieldX op) (fieldY op))
  | 0xE#4 => .ok (.shl (fieldX op) (fieldY op))
  | _ => .error (.unknownOpcode op)

/-- Group E (R100), by the low byte. -/
def decodeGroupE (op : Word) : Except Reject Instr :=
  match fieldKK op with
  | 0x9E#8 => .ok (.skp (fieldX op))
  | 0xA1#8 => .ok (.sknp (fieldX op))
  | _ => .error (.unknownOpcode op)

/-- Group F (R100), by the low byte. -/
def decodeGroupF (op : Word) : Except Reject Instr :=
  match fieldKK op with
  | 0x07#8 => .ok (.ldFromDT (fieldX op))
  | 0x0A#8 => .ok (.ldKey (fieldX op))
  | 0x15#8 => .ok (.ldDT (fieldX op))
  | 0x18#8 => .ok (.ldST (fieldX op))
  | 0x1E#8 => .ok (.addI (fieldX op))
  | 0x29#8 => .ok (.ldF (fieldX op))
  | 0x33#8 => .ok (.ldB (fieldX op))
  | 0x55#8 => .ok (.storeRegs (fieldX op))
  | 0x65#8 => .ok (.loadRegs (fieldX op))
  | _ => .error (.unknownOpcode op)

/-- `Decode(op)` (R100): total, by the word alone. -/
def decodeWord (op : Word) : Except Reject Instr :=
  match fieldT op with
  | 0x0#4 => decodeGroup0 op
  | 0x1#4 => .ok (.jp (fieldNNN op))
  | 0x2#4 => .ok (.call (fieldNNN op))
  | 0x3#4 => .ok (.seImm (fieldX op) (fieldKK op))
  | 0x4#4 => .ok (.sneImm (fieldX op) (fieldKK op))
  | 0x5#4 => if fieldLow op = 0x0#4 then .ok (.seReg (fieldX op) (fieldY op)) else .error (.unknownOpcode op)
  | 0x6#4 => .ok (.ldImm (fieldX op) (fieldKK op))
  | 0x7#4 => .ok (.addImm (fieldX op) (fieldKK op))
  | 0x8#4 => decodeGroup8 op
  | 0x9#4 => if fieldLow op = 0x0#4 then .ok (.sneReg (fieldX op) (fieldY op)) else .error (.unknownOpcode op)
  | 0xA#4 => .ok (.ldI (fieldNNN op))
  | 0xB#4 => .ok (.jpV0 (fieldNNN op))
  | 0xC#4 => .ok (.rnd (fieldX op) (fieldKK op))
  | 0xD#4 => .ok (.drw (fieldX op) (fieldY op) (fieldN op))
  | 0xE#4 => decodeGroupE op
  | _ => decodeGroupF op

/-- Two bytes as one word, the first byte the most significant: "compose big-endian into a 16-bit opcode" (R64, R91). -/
def bigEndian (hi lo : Byte) : Word := hi ++ lo

/-- Decoding bytes as memory holds them, lowest address first: the instruction and the bytes after it (R64, R92). -/
def decode : List Byte → Except Reject (Instr × List Byte)
  | hi :: lo :: rest =>
    match decodeWord (bigEndian hi lo) with
    | .ok i => .ok (i, rest)
    | .error e => .error e
  | _ => .error .tooFewBytes

/-- A register field as four bits. -/
def regBits (r : RegIdx) : BitVec 4 := BitVec.ofFin r

/-- Format NNN (R94). -/
def encodeNNN (t : BitVec 4) (nnn : BitVec 12) : Word := t ++ nnn

/-- Format XKK (R94); format X is the same with a fixed low byte. -/
def encodeXKK (t : BitVec 4) (x : RegIdx) (kk : Byte) : Word := t ++ regBits x ++ kk

/-- Format XYN (R94); format XY is the same with a fixed low nibble. -/
def encodeXYN (t : BitVec 4) (x y : RegIdx) (low : BitVec 4) : Word := t ++ regBits x ++ regBits y ++ low

/-- The word of an instruction (R94, R95). -/
def encode : Instr → Word
  | .cls => 0x00E0#16
  | .ret => 0x00EE#16
  | .jp nnn => encodeNNN 0x1#4 nnn
  | .call nnn => encodeNNN 0x2#4 nnn
  | .seImm x kk => encodeXKK 0x3#4 x kk
  | .sneImm x kk => encodeXKK 0x4#4 x kk
  | .seReg x y => encodeXYN 0x5#4 x y 0x0#4
  | .ldImm x kk => encodeXKK 0x6#4 x kk
  | .addImm x kk => encodeXKK 0x7#4 x kk
  | .ldReg x y => encodeXYN 0x8#4 x y 0x0#4
  | .orReg x y => encodeXYN 0x8#4 x y 0x1#4
  | .andReg x y => encodeXYN 0x8#4 x y 0x2#4
  | .xorReg x y => encodeXYN 0x8#4 x y 0x3#4
  | .addReg x y => encodeXYN 0x8#4 x y 0x4#4
  | .subReg x y => encodeXYN 0x8#4 x y 0x5#4
  | .shr x y => encodeXYN 0x8#4 x y 0x6#4
  | .subnReg x y => encodeXYN 0x8#4 x y 0x7#4
  | .shl x y => encodeXYN 0x8#4 x y 0xE#4
  | .sneReg x y => encodeXYN 0x9#4 x y 0x0#4
  | .ldI nnn => encodeNNN 0xA#4 nnn
  | .jpV0 nnn => encodeNNN 0xB#4 nnn
  | .rnd x kk => encodeXKK 0xC#4 x kk
  | .drw x y n => encodeXYN 0xD#4 x y (regBits n)
  | .skp x => encodeXKK 0xE#4 x 0x9E#8
  | .sknp x => encodeXKK 0xE#4 x 0xA1#8
  | .ldFromDT x => encodeXKK 0xF#4 x 0x07#8
  | .ldKey x => encodeXKK 0xF#4 x 0x0A#8
  | .ldDT x => encodeXKK 0xF#4 x 0x15#8
  | .ldST x => encodeXKK 0xF#4 x 0x18#8
  | .addI x => encodeXKK 0xF#4 x 0x1E#8
  | .ldF x => encodeXKK 0xF#4 x 0x29#8
  | .ldB x => encodeXKK 0xF#4 x 0x33#8
  | .storeRegs x => encodeXKK 0xF#4 x 0x55#8
  | .loadRegs x => encodeXKK 0xF#4 x 0x65#8

/-- The byte at the lower address: `op[15:8]` (R64). -/
def highByte (op : Word) : Byte := op.extractLsb' 8 8

/-- The byte at the higher address: `op[7:0]` (R64). -/
def lowByte (op : Word) : Byte := op.extractLsb' 0 8

/-- The two bytes of an instruction as memory holds them, lowest address first (R64). -/
def encodeBytes (i : Instr) : List Byte := [highByte (encode i), lowByte (encode i)]

/-- The word of a table row: the `nbits` given bits, every bit above them 0 (an instruction here has one word, R92). -/
def tableWord (nbits w : Nat) : Word := BitVec.ofNat 16 (w % 2 ^ nbits)

/-- What the decoder reads from the two bytes of a table row's word, laid out as memory holds them. -/
def decodeTableWord (nbits w : Nat) : Option Instr :=
  match decode [highByte (tableWord nbits w), lowByte (tableWord nbits w)] with
  | .ok (i, _) => some i
  | .error _ => none

end Sys2Proof
end

