-- ==== Sys2Proof/Config.lean ====
section
/-!
DEFINITION. What an implementation fixes (00_scope R6) and the one free value of the machine (42_alu R143).
The font bytes, a parameter of a run, stand in Machine/Font.lean and in the memory itself (20_memory R63).
-/
namespace Sys2Proof

/-- `PROG_BASE`: where a ROM is loaded and where execution starts (R6, R241). -/
abbrev Config.progBase : Nat := 0x200

/-- `MAX_ROM`, the bytes of a ROM that are loaded: 4096 - 0x200 (R6, R242). -/
abbrev Config.maxRom : Nat := 3584

/-- FREE VALUE (DESIGN CHOICE, log 2): the byte the random source supplies to the `k`-th executed `Cxkk` (R143, D17).
It has no body, so that nothing can be proved about any draw: a claim holds for every sequence of draws. -/
opaque Config.randomByte : Nat → Byte

end Sys2Proof
end

