-- ==== Sys2Proof/Machine/Font.lean ====
section
/-!
DEFINITION. The parameter `FONT` (20_memory R63, 92_eei_decisions D18): its type and the default table.
-/
namespace Sys2Proof.Machine

/-- The 80 bytes of `FONT`: glyph `d`, row `r` at index `d * 5 + r` (R63). -/
abbrev Font := Vector Byte 80

/-- PRESUMED (log 1): the default table of R63, which the spec marks as general knowledge and not from the source.
The source fixes only where the glyphs stand; every statement that does not speak of `State.reset` holds for every font. -/
def defaultFont : Font :=
  #v[0xF0, 0x90, 0x90, 0x90, 0xF0,  -- 0
     0x20, 0x60, 0x20, 0x20, 0x70,  -- 1
     0xF0, 0x10, 0xF0, 0x80, 0xF0,  -- 2
     0xF0, 0x10, 0xF0, 0x10, 0xF0,  -- 3
     0x90, 0x90, 0xF0, 0x10, 0x10,  -- 4
     0xF0, 0x80, 0xF0, 0x10, 0xF0,  -- 5
     0xF0, 0x80, 0xF0, 0x90, 0xF0,  -- 6
     0xF0, 0x10, 0x20, 0x40, 0x40,  -- 7
     0xF0, 0x90, 0xF0, 0x90, 0xF0,  -- 8
     0xF0, 0x90, 0xF0, 0x10, 0xF0,  -- 9
     0xF0, 0x90, 0xF0, 0x90, 0x90,  -- A
     0xE0, 0x90, 0xE0, 0x90, 0xE0,  -- B
     0xF0, 0x80, 0x80, 0x80, 0xF0,  -- C
     0xE0, 0x90, 0x90, 0x90, 0xE0,  -- D
     0xF0, 0x80, 0xF0, 0x80, 0xF0,  -- E
     0xF0, 0x80, 0xF0, 0x80, 0x80]  -- F

end Sys2Proof.Machine
end

