-- ==== Sys2Proof/Machine/State.lean ====
section
/-!
DEFINITION. The whole state of the core as plain data (10_state R40), the reasons a step or an operation stops, and the
state after `reset()` (70_reset R240). What acts on the state stands in Ops.lean and the files after it.
-/
namespace Sys2Proof.Machine

/-- The 4096 bytes `MEM` (R30, R60). `cells` lists the bytes that differ from their reset contents, addresses strictly
rising; `font` is the parameter `FONT` of R63, fixed for a run, from which the reset contents follow (`Memory.background`). -/
structure Memory where
  font : Font
  cells : List Host.Cell
  deriving DecidableEq, Repr

/-- `FB[row][col]`, 32 rows of 64 one-bit pixels (R31); `true` is on. -/
abbrev Framebuffer := Vector (Vector Bool 64) 32

/-- `run`, the state of the instruction stream (R33). -/
inductive RunState where
  | running
  /-- `AwaitingKey(r)`: an `Fx0A` is pending and will write register `r`. -/
  | awaitingKey (r : RegIdx)
  /-- Entered by a fault only, left by `reset()` only. -/
  | halted
  deriving DecidableEq, Repr

/-- `fault`, the fault record (R34, R39): cause code, address of the instruction that raised, faulting address. -/
structure FaultRecord where
  code : BitVec 2
  fpc : Word
  info : Word
  deriving DecidableEq, Repr

/-- The three fatal faults of the core (R200 to R203). The operations below raise them; the step then performs fault entry
(R207) and answers a NEXT state with `run = Halted`. No step ever answers `Host.Outcome.fault`: entry is an effect the spec
describes, so nothing is cut short (log 4). -/
inductive Fault where
  /-- Raised by a fetch, `Dxyn`, `Fx33`, `Fx55`, `Fx65` at an address of 4096 or more; `addr` is the lowest such address of
  the access (R201). Safe: taken as the spec describes. -/
  | outOfBounds (addr : Word)
  /-- Raised by `2nnn` with a full stack (R202). Safe: taken as the spec describes. -/
  | stackOverflow
  /-- Raised by `00EE` with an empty stack (R203). Safe: taken as the spec describes. -/
  | stackUnderflow
  deriving DecidableEq, Repr

/-- What the model gives no meaning. -/
inductive Refusal where
  /-- An instruction without a meaning. Nobody raises it: every instruction has its meaning. Safe. -/
  | notModelled (mnemonic : String)
  /-- Raised by the host operation `load` anywhere but directly after `reset`: "a model refuses it" (R243, D21). Safe. -/
  | loadNotAfterReset
  /-- Raised by the host operation `set_key` for a code above 15: "a model refuses any other argument" (R219, D33). Safe. -/
  | keyCodeOutOfRange (code : Nat)
  deriving DecidableEq, Repr

/-- The complete state of the core (R40). -/
structure State where
  /-- `V[0..15]` (R20); `VF` is `V[15]` (R21). -/
  v : Vector Byte 16
  /-- The index register `I` (R23). -/
  i : Word
  /-- The program counter: during a step, the address of the instruction being executed (R24). -/
  pc : Word
  /-- The stack pointer, the number of entries in use, 0..16 (R27). -/
  sp : Fin 17
  /-- `stack[0..15]` (R27). -/
  stack : Vector Word 16
  /-- The delay timer (R28). -/
  dt : Byte
  /-- The sound timer (R29). -/
  st : Byte
  /-- `MEM` (R30). -/
  mem : Memory
  /-- `FB` (R31). -/
  fb : Framebuffer
  /-- `KEY[0..15]`: which keys are down (R32). -/
  key : Vector Bool 16
  /-- `run` (R33). -/
  run : RunState
  /-- `fault` (R34). -/
  fault : FaultRecord
  /-- The MODEL'S OWN field (log 2): how many random bytes `Cxkk` steps have drawn; it indexes `Config.randomByte`. -/
  draws : Nat
  deriving DecidableEq, Repr

/-- The state after `reset()` with the parameter `FONT` (R240, R40): memory lists nothing, so that every byte reads its reset
contents. -/
def State.resetWith (font : Font) : State where
  v := Vector.replicate 16 0#8
  i := 0#16
  pc := 0x200#16
  sp := 0
  stack := Vector.replicate 16 0#16
  dt := 0#8
  st := 0#8
  mem := ⟨font, []⟩
  fb := Vector.replicate 32 (Vector.replicate 64 false)
  key := Vector.replicate 16 false
  run := .running
  fault := ⟨0#2, 0#16, 0#16⟩
  draws := 0

/-- The machine right after reset (R240), with the default font of R63 (PRESUMED, log 1). -/
def State.reset : State := State.resetWith defaultFont

end Sys2Proof.Machine
end

