-- ==== Sys2Proof/Machine/Ops.lean ====
section
/-!
DEFINITION. The named operations over registers, memory, call stack, keypad, framebuffer and timers, fault entry, and the
fetch. The meanings of the instructions and the host's operations are written over these.
-/
namespace Sys2Proof.Machine

/-- What an instruction answers. -/
abbrev Answer := Host.Outcome State Fault Refusal

/-! ### One home for every piece of state -/

/-- `V[r]` (R11). -/
def State.readV (s : State) (r : RegIdx) : Byte := s.v[r]

/-- `V[r] <- b` (R11). -/
def State.writeV (s : State) (r : RegIdx) (b : Byte) : State := { s with v := s.v.set r b }

/-- All sixteen registers at once (`Fx65`). -/
def State.setRegs (s : State) (v : Vector Byte 16) : State := { s with v := v }

/-- `I <- a` (R23). -/
def State.setI (s : State) (a : Word) : State := { s with i := a }

/-- `pc <- a` (R24). -/
def State.setPc (s : State) (a : Word) : State := { s with pc := a }

/-- The call stack and its pointer (R27). -/
def State.setCallStack (s : State) (sp : Fin 17) (stack : Vector Word 16) : State := { s with sp := sp, stack := stack }

/-- `DT <- b` (R28). -/
def State.setDT (s : State) (b : Byte) : State := { s with dt := b }

/-- `ST <- b` (R29). -/
def State.setST (s : State) (b : Byte) : State := { s with st := b }

/-- The memory (R30). -/
def State.setMem (s : State) (m : Memory) : State := { s with mem := m }

/-- The framebuffer (R31). -/
def State.setFb (s : State) (fb : Framebuffer) : State := { s with fb := fb }

/-- `KEY[k] <- down` (R32). -/
def State.setKeyFlag (s : State) (k : KeyCode) (down : Bool) : State := { s with key := s.key.set k down }

/-- `run <- r` (R33). -/
def State.setRun (s : State) (r : RunState) : State := { s with run := r }

/-- `fault <- f` (R34). -/
def State.setFault (s : State) (f : FaultRecord) : State := { s with fault := f }

/-- One more random byte has been drawn (log 2). -/
def State.countDraw (s : State) : State := { s with draws := s.draws + 1 }

/-! ### The advance of `pc` (R25) -/

/-- `pc <- pc + 2`, on 16 bits (no run reaches a wrap, R26; log 5). -/
def State.advance (s : State) : State := s.setPc (s.pc + 2#16)

/-- `pc <- pc + (4 if taken else 2)` (R120). -/
def State.skipIf (s : State) (taken : Bool) : State := s.setPc (s.pc + (if taken then 4#16 else 2#16))

/-! ### Fault entry (R207) -/

/-- The cause code of a fault (R206). -/
def faultCode : Fault → BitVec 2
  | .outOfBounds _ => 1#2
  | .stackOverflow => 2#2
  | .stackUnderflow => 3#2

/-- The `info` of a fault: the faulting address for OutOfBounds, 0 otherwise (R34, R206). -/
def faultInfo : Fault → Word
  | .outOfBounds a => a
  | .stackOverflow => 0#16
  | .stackUnderflow => 0#16

/-- Fault entry: `fault <- (code, pc, info)`, `run <- Halted`, everything else as it was before the step (R207, R15). -/
def State.faultEntry (s : State) (f : Fault) : State :=
  (s.setFault ⟨faultCode f, s.pc, faultInfo f⟩).setRun .halted

/-- A step ends: the instruction's writes are applied, or a fault is taken on the state before the step (R12, R15, R208). -/
def State.finish (s : State) : Except Fault State → Answer
  | .ok t => .next t
  | .error f => .next (s.faultEntry f)

/-! ### Memory: one byte -/

/-- What an unlisted address reads as: the reset contents (R40): the `FONT` byte below 0x050, 0 elsewhere. -/
def Memory.background (m : Memory) (a : Nat) : Byte := if h : a < 80 then m.font[a] else 0#8

/-- The byte listed for address `a`, or `bg` where none is. -/
def cellRead (bg : Byte) (a : Nat) : List Host.Cell → Byte
  | [] => bg
  | (c, b) :: rest => if c = a then b else cellRead bg a rest

/-- The cell of address `a` when it holds `b`: none where that is what the unlisted address reads as. -/
def cellOf (bg : Byte) (a : Nat) (b : Byte) : List Host.Cell := if b = bg then [] else [(a, b)]

/-- `cells` with the byte at address `a` made `b`, addresses still rising. -/
def cellWrite (bg : Byte) (a : Nat) (b : Byte) : List Host.Cell → List Host.Cell
  | [] => cellOf bg a b
  | (c, d) :: rest =>
    if a < c then cellOf bg a b ++ (c, d) :: rest
    else if c = a then cellOf bg a b ++ rest
    else (c, d) :: cellWrite bg a b rest

/-- `MEM[a]` (R11); callers check the bound (R67). -/
def Memory.read (m : Memory) (a : Nat) : Byte := cellRead (m.background a) a m.cells

/-- `MEM[a] <- b`; callers check the bound (R67). -/
def Memory.write (m : Memory) (a : Nat) (b : Byte) : Memory := { m with cells := cellWrite (m.background a) a b m.cells }

/-- The cells are addresses from `lo` to 0xFFF, strictly rising, none equal to what the unlisted address reads as. -/
def cellsCanonical (bg : Nat → Byte) : Nat → List Host.Cell → Bool
  | _, [] => true
  | lo, (c, b) :: rest => decide (lo ≤ c) && decide (c < 4096) && b != bg c && cellsCanonical bg (c + 1) rest

/-- The canonical form of memory: equal memories are equal data. -/
def Memory.wf (m : Memory) : Bool := cellsCanonical m.background 0 m.cells

/-! ### Memory: blocks (R13, R14, R78) -/

/-- The bound check of an access of `n` bytes at `addr`, over the naturals: none when it is within memory or touches no byte,
else OutOfBounds with the lowest address out of range (R67, R68, R69). -/
def boundsFault (addr n : Nat) : Option Fault :=
  if 0 < n ∧ 4096 ≤ addr + n - 1 then some (.outOfBounds (BitVec.ofNat 16 (max addr 4096))) else none

/-- The `n` bytes from address `a`, lowest address first. -/
def Memory.readBytes (m : Memory) (a : Nat) : Nat → List Byte
  | 0 => []
  | n + 1 => m.read a :: m.readBytes (a + 1) n

/-- The bytes written from address `a` on, one at each address (all different, so their order is not observable). -/
def Memory.writeBytes (m : Memory) (a : Nat) : List Byte → Memory
  | [] => m
  | b :: bs => (m.writeBytes (a + 1) bs).write a b

/-- `MemRead(addr, n)` (R13): the bytes, or OutOfBounds. -/
def State.memRead (s : State) (addr n : Nat) : Except Fault (List Byte) :=
  match boundsFault addr n with
  | some f => .error f
  | none => .ok (s.mem.readBytes addr n)

/-- `MemWrite` of a whole block after its one check (R14, R69): the state with the bytes written, or OutOfBounds. -/
def State.memWrite (s : State) (addr : Nat) (bs : List Byte) : Except Fault State :=
  match boundsFault addr bs.length with
  | some f => .error f
  | none => .ok (s.setMem (s.mem.writeBytes addr bs))

/-- `Fetch()` (R91): the two bytes at `pc` and `pc + 1`, big-endian, or OutOfBounds. -/
def State.fetch (s : State) : Except Fault Word :=
  match boundsFault s.pc.toNat 2 with
  | some f => .error f
  | none => .ok (bigEndian (s.mem.read s.pc.toNat) (s.mem.read (s.pc.toNat + 1)))

/-! ### The call stack (R110) -/

/-- `Push(v)`. -/
def State.push (s : State) (w : Word) : Except Fault State :=
  if h : s.sp.val < 16 then .ok (s.setCallStack ⟨s.sp.val + 1, by omega⟩ (s.stack.set s.sp.val w h))
  else .error .stackOverflow

/-- `Pop()`: the entry and the state without it; the released entry keeps its value. -/
def State.pop (s : State) : Except Fault (Word × State) :=
  if h : 0 < s.sp.val then
    .ok (s.stack[s.sp.val - 1]'(by omega), s.setCallStack ⟨s.sp.val - 1, by omega⟩ s.stack)
  else .error .stackUnderflow

/-! ### The keypad (R180, R181) -/

/-- `IsPressed(code)`: a code above 15 names no key and is not pressed (R180, D15). -/
def State.isPressed (s : State) (code : Byte) : Bool := if h : code.toNat < 16 then s.key[code.toNat] else false

/-- The sixteen codes, lowest first. -/
def keyCodes : List KeyCode := [0, 1, 2, 3, 4, 5, 6, 7, 8, 9, 10, 11, 12, 13, 14, 15]

/-- `AnyPressed()`: the lowest key that is down, or none (R181). -/
def State.anyPressed (s : State) : Option KeyCode := keyCodes.find? (fun k => s.key[k])

/-! ### The framebuffer engine (R160, R161, R162) -/

/-- `FB[row][col]`. -/
def getPixel (fb : Framebuffer) (row : Fin 32) (col : Fin 64) : Bool := (fb[row])[col]

/-- `FB[row][col] <- on`. -/
def setPixel (fb : Framebuffer) (row : Fin 32) (col : Fin 64) (on : Bool) : Framebuffer := fb.set row ((fb[row]).set col on)

/-- `Clear()` (R161). -/
def clearedFb : Framebuffer := Vector.replicate 32 (Vector.replicate 64 false)

/-- A column, wrapped (R162). -/
def wrapCol (c : Nat) : Fin 64 := ⟨c % 64, Nat.mod_lt _ (by decide)⟩

/-- A row, wrapped (R162). -/
def wrapRow (r : Nat) : Fin 32 := ⟨r % 32, Nat.mod_lt _ (by decide)⟩

/-- One pixel of `Draw`: XOR the bit in; a collision when it turns a lit pixel off (R162). -/
def xorPixel (row : Fin 32) (col : Fin 64) (bit : Bool) (acc : Framebuffer × Bool) : Framebuffer × Bool :=
  (setPixel acc.1 row col (getPixel acc.1 row col ^^ bit), acc.2 || (getPixel acc.1 row col && bit))

/-- The bits `b`, `b + 1`, ... of a sprite byte, `k` of them; bit 7 is the leftmost, at column `ox` (R162). -/
def drawBits (ox : Nat) (row : Fin 32) (byte : Byte) : Nat → Nat → Framebuffer × Bool → Framebuffer × Bool
  | _, 0, acc => acc
  | b, k + 1, acc => drawBits ox row byte (b + 1) k (xorPixel row (wrapCol (ox + b)) (byte.getLsbD (7 - b)) acc)

/-- The sprite rows from row `r` on (R162). -/
def drawRows (ox oy : Nat) : Nat → List Byte → Framebuffer × Bool → Framebuffer × Bool
  | _, [], acc => acc
  | r, byte :: rest, acc => drawRows ox oy (r + 1) rest (drawBits ox (wrapRow (oy + r)) byte 0 8 acc)

/-- `Draw(ox, oy, rows)`: the framebuffer after it and the collision (R162). -/
def draw (fb : Framebuffer) (ox oy : Nat) (rows : List Byte) : Framebuffer × Bool := drawRows ox oy 0 rows (fb, false)

/-- The sprite of `rows` at `(ox, oy)` has a lit bit on pixel `(col, row)`: bit 7 is the leftmost, both coordinates wrapped
(R162). What `draw` does to the pixels, said of each pixel; the draw itself is the loop above. -/
abbrev SpriteLights (ox oy : Nat) (rows : List Byte) (row : Fin 32) (col : Fin 64) : Prop :=
  ∃ (r : Fin rows.length) (b : Fin 8), wrapRow (oy + r) = row ∧ wrapCol (ox + b) = col ∧ rows[r].getLsbD (7 - b) = true

/-! ### A step that is not an instruction -/

/-- The step of an unknown opcode: a no-op that advances `pc` by 2 (R97); its report is `State.diagnostic`. -/
def State.unknownStep (s : State) : State := s.advance

/-- The word `w` stored at `pc` and `pc + 1`, big-endian, and the instruction stream running (R91, R64): what the next step
fetches. Where those two addresses are not both in memory nothing is stored, for no fetch is possible there (R91). -/
def State.placeWord (s : State) (w : Word) : State :=
  if s.pc.toNat + 1 < 4096 then
    (s.setMem (s.mem.writeBytes s.pc.toNat [highByte w, lowByte w])).setRun .running
  else s.setRun .running

end Sys2Proof.Machine
end

