-- ==== Sys2Proof/Machine/Flags.lean ====
section
/-!
DEFINITION. Every flag computation of the machine (10_state R21, R22, 42_alu R137 to R141, R144): VF is 1 or 0.
-/
namespace Sys2Proof.Machine

/-- The flag register `VF`, `V[15]` (R21). -/
def vf : RegIdx := 15

/-- A flag as a byte: exactly 0 or 1 (R21, R130). -/
def flagByte (b : Bool) : Byte := if b then 1#8 else 0#8

/-- Carry out of an 8-bit addition: the exact sum exceeds 255 (R137). -/
def carryOut (a b : Byte) : Bool := decide (255 < a.toNat + b.toNat)

/-- No borrow in `a - b`, equality included (R138, R140). -/
def noBorrow (a b : Byte) : Bool := decide (b.toNat ≤ a.toNat)

/-- The bit a right shift by one loses (R139). -/
def lostLow (a : Byte) : Bool := a.getLsbD 0

/-- The bit a left shift by one loses (R141). -/
def lostHigh (a : Byte) : Bool := a.getLsbD 7

/-- The flag is written to VF first and the result to `V[x]` second, so that with `x = 0xF` the result remains (R22). -/
def State.writeFlagged (s : State) (x : RegIdx) (flag : Bool) (result : Byte) : State :=
  (s.writeV vf (flagByte flag)).writeV x result

end Sys2Proof.Machine
end

