-- ==== Sys2Proof/Machine/Operands.lean ====
section
/-!
DEFINITION. The operand forms of the instructions (30_encoding R101, 43_index_memory R150): a zero-extended address, the
byte of a small number, the effective address, a block of registers, and the values computed from one byte.
-/
namespace Sys2Proof.Machine

/-- `zext_16(nnn)` (R101). -/
def addrOf (nnn : BitVec 12) : Word := nnn.setWidth 16

/-- `zext_16(b)` (R9). -/
def zext16 (b : Byte) : Word := b.setWidth 16

/-- The effective address of element 0 of a data access: `I` as a natural number (R150). -/
abbrev State.dataAddr (s : State) : Nat := s.i.toNat

/-- The values of V0 to Vx inclusive, V0 first (R155). -/
def State.regBlock (s : State) (x : RegIdx) : List Byte := s.v.toList.take (x.val + 1)

/-- The registers from number `k` on loaded from the bytes, one each (R156). -/
def loadBlock (v : Vector Byte 16) : Nat → List Byte → Vector Byte 16
  | _, [] => v
  | k, b :: bs => if h : k < 16 then loadBlock (v.set k b h) (k + 1) bs else v

/-- The hundreds, tens and ones digits of a byte, each a whole byte (R154). -/
def bcdDigits (a : Byte) : List Byte :=
  [BitVec.ofNat 8 (a.toNat / 100), BitVec.ofNat 8 (a.toNat / 10 % 10), BitVec.ofNat 8 (a.toNat % 10)]

/-- `zext_16(a) * 5`, the address of glyph `a` (R153). -/
def glyphAddr (a : Byte) : Word := BitVec.ofNat 16 (a.toNat * 5)

/-- A key code as the byte written to a register (R184). -/
def keyByte (k : KeyCode) : Byte := BitVec.ofNat 8 k.val

end Sys2Proof.Machine
end

