-- ==== Sys2Proof/Machine/Alu.lean ====
section
/-!
DEFINITION. Register load, arithmetic, logic, shift and random (42_alu): 6xkk, 7xkk, 8xy0 to 8xyE, Cxkk. Operands are read
from the state before the step (R130); arithmetic is on bytes, modulo 256 (R144).
-/
namespace Sys2Proof.Machine

/-- An instruction of this family that writes `V[x]` and no flag (R130). -/
def State.endWith (s : State) (x : RegIdx) (result : Byte) : Answer := .next (s.writeV x result).advance

/-- An instruction of this family that writes VF as a flag and then `V[x]` (R130). -/
def State.endWithFlag (s : State) (x : RegIdx) (flag : Bool) (result : Byte) : Answer :=
  .next (s.writeFlagged x flag result).advance

/-- `6xkk`, LD Vx, kk (R131). -/
def execLdImm (x : RegIdx) (kk : Byte) (s : State) : Answer := s.endWith x kk

/-- `7xkk`, ADD Vx, kk: no carry recorded (R132). -/
def execAddImm (x : RegIdx) (kk : Byte) (s : State) : Answer := s.endWith x (s.readV x + kk)

/-- `8xy0`, LD Vx, Vy (R133). -/
def execLdReg (x y : RegIdx) (s : State) : Answer := s.endWith x (s.readV y)

/-- `8xy1`, OR Vx, Vy (R134). -/
def execOrReg (x y : RegIdx) (s : State) : Answer := s.endWith x (s.readV x ||| s.readV y)

/-- `8xy2`, AND Vx, Vy (R135). -/
def execAndReg (x y : RegIdx) (s : State) : Answer := s.endWith x (s.readV x &&& s.readV y)

/-- `8xy3`, XOR Vx, Vy (R136). -/
def execXorReg (x y : RegIdx) (s : State) : Answer := s.endWith x (s.readV x ^^^ s.readV y)

/-- `8xy4`, ADD Vx, Vy (R137). -/
def execAddReg (x y : RegIdx) (s : State) : Answer :=
  s.endWithFlag x (carryOut (s.readV x) (s.readV y)) (s.readV x + s.readV y)

/-- `8xy5`, SUB Vx, Vy (R138). -/
def execSubReg (x y : RegIdx) (s : State) : Answer :=
  s.endWithFlag x (noBorrow (s.readV x) (s.readV y)) (s.readV x - s.readV y)

/-- `8xy6`, SHR Vx: the field `y` takes no part (R139, R99). -/
def execShr (x _y : RegIdx) (s : State) : Answer := s.endWithFlag x (lostLow (s.readV x)) (s.readV x >>> 1)

/-- `8xy7`, SUBN Vx, Vy (R140). -/
def execSubnReg (x y : RegIdx) (s : State) : Answer :=
  s.endWithFlag x (noBorrow (s.readV y) (s.readV x)) (s.readV y - s.readV x)

/-- `8xyE`, SHL Vx: the field `y` takes no part (R141, R99). -/
def execShl (x _y : RegIdx) (s : State) : Answer := s.endWithFlag x (lostHigh (s.readV x)) (s.readV x <<< 1)

/-- `Cxkk`, RND Vx, kk: the random byte is the free value of this draw (R142, R143, log 2). -/
def execRnd (x : RegIdx) (kk : Byte) (s : State) : Answer := s.countDraw.endWith x (Config.randomByte s.draws &&& kk)

end Sys2Proof.Machine
end

