-- ==== Sys2Proof/Machine/ControlFlow.lean ====
section
/-!
DEFINITION. Control transfer (40_control_flow): 00EE, 1nnn, 2nnn, Bnnn set `pc` absolutely.
-/
namespace Sys2Proof.Machine

/-- `00EE`, RET (R111). -/
def execRet (s : State) : Answer :=
  s.finish (match s.pop with
    | .ok (target, t) => .ok (t.setPc target)
    | .error f => .error f)

/-- `1nnn`, JP nnn (R112). -/
def execJp (nnn : BitVec 12) (s : State) : Answer := .next (s.setPc (addrOf nnn))

/-- `2nnn`, CALL nnn: pushes the address after the call (R113). -/
def execCall (nnn : BitVec 12) (s : State) : Answer :=
  s.finish (match s.push (s.pc + 2#16) with
    | .ok t => .ok (t.setPc (addrOf nnn))
    | .error f => .error f)

/-- `Bnnn`, JP V0, nnn: the sum is not masked to 12 bits (R114). -/
def execJpV0 (nnn : BitVec 12) (s : State) : Answer := .next (s.setPc (addrOf nnn + zext16 (s.readV 0)))

end Sys2Proof.Machine
end

