-- ==== Sys2Proof/Machine/Display.lean ====
section
/-!
DEFINITION. The display instructions (44_display): 00E0 and Dxyn, over the framebuffer engine of Ops.lean.
-/
namespace Sys2Proof.Machine

/-- `00E0`, CLS: VF is not written (R164). -/
def execCls (s : State) : Answer := .next (s.setFb clearedFb).advance

/-- The drawing of the sprite rows at `(V[x], V[y])`: the framebuffer, then VF, then `pc` (R165). -/
def State.drawn (s : State) (x y : RegIdx) (rows : List Byte) : State :=
  let d := draw s.fb (s.readV x).toNat (s.readV y).toNat rows
  ((s.setFb d.1).writeV vf (flagByte d.2)).advance

/-- `Dxyn`, DRW Vx, Vy, n (R165). -/
def execDrw (x y : RegIdx) (n : Fin 16) (s : State) : Answer :=
  s.finish (match s.memRead s.dataAddr n.val with
    | .ok rows => .ok (s.drawn x y rows)
    | .error f => .error f)

end Sys2Proof.Machine
end

