-- ==== Sys2Proof/Machine/IndexMemory.lean ====
section
/-!
DEFINITION. The index register and the instructions that move bytes between registers and memory (43_index_memory):
Annn, Fx1E, Fx29, Fx33, Fx55, Fx65. A block is checked whole before anything is written (R150).
-/
namespace Sys2Proof.Machine

/-- `Annn`, LD I, nnn (R151). -/
def execLdI (nnn : BitVec 12) (s : State) : Answer := .next (s.setI (addrOf nnn)).advance

/-- `Fx1E`, ADD I, Vx: modulo 65536, VF not written (R152). -/
def execAddI (x : RegIdx) (s : State) : Answer := .next (s.setI (s.i + zext16 (s.readV x))).advance

/-- `Fx29`, LD F, Vx (R153). -/
def execLdF (x : RegIdx) (s : State) : Answer := .next (s.setI (glyphAddr (s.readV x))).advance

/-- A store of the bytes at `I`, then `pc + 2`; or OutOfBounds with nothing written (R69, R150). -/
def State.storeAtI (s : State) (bs : List Byte) : Answer :=
  s.finish (match s.memWrite s.dataAddr bs with
    | .ok t => .ok t.advance
    | .error f => .error f)

/-- `Fx33`, LD B, Vx (R154). -/
def execLdB (x : RegIdx) (s : State) : Answer := s.storeAtI (bcdDigits (s.readV x))

/-- `Fx55`, LD [I], Vx (R155). -/
def execStoreRegs (x : RegIdx) (s : State) : Answer := s.storeAtI (s.regBlock x)

/-- `Fx65`, LD Vx, [I] (R156). -/
def execLoadRegs (x : RegIdx) (s : State) : Answer :=
  s.finish (match s.memRead s.dataAddr (x.val + 1) with
    | .ok bs => .ok (s.setRegs (loadBlock s.v 0 bs)).advance
    | .error f => .error f)

end Sys2Proof.Machine
end

