-- ==== Sys2Proof/Machine/KeypadTimers.lean ====
section
/-!
DEFINITION. Keypad and timer instructions (45_keypad_timers): Ex9E, ExA1, Fx0A with its key-wait step, Fx07, Fx15, Fx18.
-/
namespace Sys2Proof.Machine

/-- `Ex9E`, SKP Vx (R182). -/
def execSkp (x : RegIdx) (s : State) : Answer := .next (s.skipIf (s.isPressed (s.readV x)))

/-- `ExA1`, SKNP Vx (R183). -/
def execSknp (x : RegIdx) (s : State) : Answer := .next (s.skipIf (!s.isPressed (s.readV x)))

/-- A key has been found: `V[r] <- k; pc <- pc + 2` (R184). -/
def State.takeKey (s : State) (r : RegIdx) (k : KeyCode) : State := (s.writeV r (keyByte k)).advance

/-- `Fx0A`, LD Vx, K, the step that fetches it (R184). -/
def execLdKey (x : RegIdx) (s : State) : Answer :=
  match s.anyPressed with
  | none => .next (s.setRun (.awaitingKey x))
  | some k => .next (s.takeKey x k)

/-- `KeyWaitStep(r)`, every later step while `run = AwaitingKey(r)` (R184). -/
def keyWaitStep (r : RegIdx) (s : State) : Answer :=
  match s.anyPressed with
  | none => .next s
  | some k => .next ((s.takeKey r k).setRun .running)

/-- `Fx07`, LD Vx, DT (R185). -/
def execLdFromDT (x : RegIdx) (s : State) : Answer := .next (s.writeV x s.dt).advance

/-- `Fx15`, LD DT, Vx (R186). -/
def execLdDT (x : RegIdx) (s : State) : Answer := .next (s.setDT (s.readV x)).advance

/-- `Fx18`, LD ST, Vx (R187). -/
def execLdST (x : RegIdx) (s : State) : Answer := .next (s.setST (s.readV x)).advance

end Sys2Proof.Machine
end

