-- ==== Sys2Proof/Machine/Skips.lean ====
section
/-!
DEFINITION. Conditional skips on registers (41_skips): 3xkk, 4xkk, 5xy0, 9xy0.
-/
namespace Sys2Proof.Machine

/-- `3xkk`, SE Vx, kk (R121). -/
def execSeImm (x : RegIdx) (kk : Byte) (s : State) : Answer := .next (s.skipIf (s.readV x == kk))

/-- `4xkk`, SNE Vx, kk (R122). -/
def execSneImm (x : RegIdx) (kk : Byte) (s : State) : Answer := .next (s.skipIf (s.readV x != kk))

/-- `5xy0`, SE Vx, Vy (R123). -/
def execSeReg (x y : RegIdx) (s : State) : Answer := .next (s.skipIf (s.readV x == s.readV y))

/-- `9xy0`, SNE Vx, Vy (R124). -/
def execSneReg (x y : RegIdx) (s : State) : Answer := .next (s.skipIf (s.readV x != s.readV y))

end Sys2Proof.Machine
end

