-- ==== Sys2Proof/Machine/Step.lean ====
section
/-!
DEFINITION. One `step()` (30_encoding R90), and the placing of an instruction where the next step fetches it.
-/
namespace Sys2Proof.Machine

/-- `step()` (R90), chosen by `run`. The random byte of R143 is the free value of `execRnd`; the diagnostic a step emits is
`State.diagnostic` (R204). -/
def step (s : State) : Host.Outcome State Fault Refusal :=
  match s.run with
  | .halted => .next s
  | .awaitingKey r => keyWaitStep r s
  | .running =>
    match s.fetch with
    | .error f => .next (s.faultEntry f)
    | .ok op =>
      match decodeWord op with
      | .ok i => exec i s
      | .error _ => .next s.unknownStep

/-- `s` with the instruction word of a table row where `step` fetches its next instruction. It stands for the host's `load`
of a program that begins with that word (log 10). -/
def State.withFetchWord (s : State) (nbits w : Nat) : State := s.placeWord (tableWord nbits w)

end Sys2Proof.Machine
end

