-- ==== Sys2Proof/Machine/HostOps.lean ====
section
/-!
DEFINITION. What the timer clock and the host do to the core, and what they read from it (00_scope R8, 60_exceptions R216
to R224, 70_reset R240, R242), each an operation on the state.
-/
namespace Sys2Proof.Machine

/-- A timer's count after one tick: one less while above 0 (R216). -/
def tickDown (b : Byte) : Byte := if 0 < b.toNat then b - 1#8 else b

/-- `tick_timer()` (R216): both timers, nothing else, in every run state. -/
def State.tickTimer (s : State) : State := (s.setDT (tickDown s.dt)).setST (tickDown s.st)

/-- `set_key(code, pressed)` (R219) on its domain, the codes 0..15. -/
def State.setKey (s : State) (code : KeyCode) (pressed : Bool) : State := s.setKeyFlag code pressed

/-- `reset()` of a core in any state (R240): every piece of the core's state takes its reset value. The parameter `FONT` is
fixed for a run, and the random source is outside the core, so its draws go on (R221, log 2). -/
def State.restart (s : State) : State := { State.resetWith s.mem.font with draws := s.draws }

/-- The bytes of a ROM that `load` copies: the first 3584 (R242). -/
def romBytes (rom : List Byte) : List Byte := rom.take Config.maxRom

/-- `load(rom)` (R242): the bytes from 0x200 on, nothing else. -/
def State.load (s : State) (rom : List Byte) : State := s.setMem (s.mem.writeBytes Config.progBase (romBytes rom))

/-- The truncation report of `load` (R242, R205). -/
def romTruncated (rom : List Byte) : Bool := decide (Config.maxRom < rom.length)

/-- `tone`: ST > 0 (R217). -/
def State.tone (s : State) : Bool := decide (0 < s.st.toNat)

/-- `framebuffer()` (R223): the 2048 pixels, row-major (R31). -/
def State.framebuffer (s : State) : List Bool := s.fb.toList.flatMap Vector.toList

/-- What an operation reports beside the next state (R8, R35): outputs, not state. -/
inductive Report where
  /-- `UnknownOpcode(pc, op)`, emitted by a step (R97, R204). -/
  | unknownOpcode (pc op : Word)
  /-- The truncation report of `load` (R205, R242). -/
  | loaded (truncated : Bool)
  deriving DecidableEq, Repr

/-- The diagnostic that the step from `s` emits: `UnknownOpcode(pc, op)` when a running core fetches a word that is no
instruction, else none (R97, R204, R209). -/
def State.diagnostic (s : State) : Option Report :=
  match s.run with
  | .halted => none
  | .awaitingKey _ => none
  | .running =>
    match s.fetch with
    | .error _ => none
    | .ok op =>
      match decodeWord op with
      | .ok _ => none
      | .error _ => some (.unknownOpcode s.pc op)

end Sys2Proof.Machine
end

