-- ==== Sys2Proof/Machine/Session.lean ====
section
/-!
DEFINITION. The operations on the core (00_scope R8) and their sequences: an execution is any list of them, in any order and
number, chosen by the host (60_exceptions R214), except that `load` is defined only directly after `reset` (70_reset R243).
-/
namespace Sys2Proof.Machine

/-- The operations of R8 that change the core. -/
inductive Op where
  | reset
  | load (rom : List Byte)
  | step
  | tickTimer
  | setKey (code : Nat) (pressed : Bool)
  deriving DecidableEq, Repr

/-- The core as the host drives it. `fresh` says that the last operation was `reset()` (R243, log 8): a fact about the host's
sequence of operations, no state of the core. -/
structure Session where
  core : State
  fresh : Bool
  deriving DecidableEq, Repr

/-- Directly after the construction of the core, which is its first `reset()` (R240). -/
def Session.start (font : Font) : Session := ⟨State.resetWith font, true⟩

/-- One operation (R8, R214). -/
def Session.apply (op : Op) (c : Session) : Host.Outcome Session Fault Refusal :=
  match op with
  | .reset => .next ⟨c.core.restart, true⟩
  | .load rom => if c.fresh then .next ⟨c.core.load rom, false⟩ else .refused .loadNotAfterReset
  | .step =>
    match Sys2Proof.Machine.step c.core with
    | .next s => .next ⟨s, false⟩
    | .fault f => .fault f
    | .refused r => .refused r
  | .tickTimer => .next ⟨c.core.tickTimer, false⟩
  | .setKey code pressed =>
    if h : code < 16 then .next ⟨c.core.setKey ⟨code, h⟩ pressed, false⟩ else .refused (.keyCodeOutOfRange code)

/-- What one operation reports (R8, R35). -/
def Session.report (op : Op) (c : Session) : Option Report :=
  match op with
  | .reset => none
  | .load rom => if c.fresh then some (.loaded (romTruncated rom)) else none
  | .step => c.core.diagnostic
  | .tickTimer => none
  | .setKey _ _ => none

/-- An execution: the operations one after another, each on the state the one before left (R7, R214). -/
def Session.run : List Op → Session → Host.Outcome Session Fault Refusal
  | [], c => .next c
  | op :: rest, c =>
    match c.apply op with
    | .next c' => Session.run rest c'
    | .fault f => .fault f
    | .refused r => .refused r

end Sys2Proof.Machine
end

