-- ==== Sys2Proof/Safety.lean ====
section
/-!
DEFINITION. The terms claims use: a fault state, a finished program, a blocked one, the word at `pc`, and which parts of the
state two states agree on (frames).
-/
namespace Sys2Proof.Machine

/-- No fault has been taken: "a model must treat `run = Halted` as a fault state" (R209). -/
abbrev State.Safe (s : State) : Prop := s.run ≠ .halted

/-- The program has finished: running, and the word at `pc` is a jump to `pc` itself (R247, D26). -/
abbrev State.Finished (s : State) : Prop :=
  s.run = .running ∧ ∃ nnn, s.fetch = .ok (encode (.jp nnn)) ∧ s.pc = nnn.setWidth 16

/-- The program waits for a key (R227, R247). -/
abbrev State.Blocked (s : State) : Prop := ∃ r, s.run = .awaitingKey r

/-- The parts of the state (R40), and the model's own counter of draws. -/
inductive StatePart where
  | v | i | pc | stack | dt | st | mem | fb | key | run | fault | draws
  deriving DecidableEq, Repr

/-- `t` has the same part as `s`. Memory is compared by the read of one byte, at every address. -/
def StatePart.same (s t : State) : StatePart → Prop
  | .v => ∀ r, t.readV r = s.readV r
  | .i => t.i = s.i
  | .pc => t.pc = s.pc
  | .stack => t.sp = s.sp ∧ t.stack = s.stack
  | .dt => t.dt = s.dt
  | .st => t.st = s.st
  | .mem => t.mem.font = s.mem.font ∧ ∀ a, t.mem.read a = s.mem.read a
  | .fb => t.fb = s.fb
  | .key => t.key = s.key
  | .run => t.run = s.run
  | .fault => t.fault = s.fault
  | .draws => t.draws = s.draws

/-- Every part of `t` but the listed ones is the same as in `s`. -/
def SameExcept (changed : List StatePart) (s t : State) : Prop := ∀ p, p ∉ changed → p.same s t

/-- Every register of `t` but the listed ones is the same as in `s`. -/
def SameRegsExcept (changed : List RegIdx) (s t : State) : Prop := ∀ r, r ∉ changed → t.readV r = s.readV r

/-- Every byte of memory outside the `n` bytes at address `a` reads in `t` as in `s`. -/
def SameBytesOutside (a n : Nat) (s t : State) : Prop :=
  t.mem.font = s.mem.font ∧ ∀ b, b < a ∨ a + n ≤ b → t.mem.read b = s.mem.read b

/-- What holds of the core between operations: memory is in its canonical form; `pc` and every return address are within the
bounds of R26 and R111; while a key is awaited, `pc` is at the `Fx0A` that waits (R184); the fault record says none while the
core is not halted and some fault while it is (R34, R207). -/
structure State.Inv (s : State) : Prop where
  memory : s.mem.wf = true
  pcBound : s.pc.toNat ≤ 0x10FE
  stackBound : ∀ k : Fin 16, (s.stack[k]).toNat ≤ 0x1000
  awaiting : ∀ r, s.run = .awaitingKey r → s.fetch = .ok (encode (.ldKey r))
  noFault : s.run ≠ .halted → s.fault = ⟨0#2, 0#16, 0#16⟩
  someFault : s.run = .halted → s.fault.code ≠ 0#2

/-- What holds of the core as the host drives it: directly after `reset` the core is running. -/
structure Session.Inv (c : Session) : Prop where
  core : c.core.Inv
  fresh : c.fresh = true → c.core.run = .running

/-- `t` is `s` after fault entry with this code and info: `fault` and `run` written, every other part the same (R207). -/
def FaultTaken (code : BitVec 2) (info : Word) (s t : State) : Prop :=
  t.run = .halted ∧ t.fault = ⟨code, s.pc, info⟩ ∧ SameExcept [.run, .fault] s t

end Sys2Proof.Machine
end

