-- ==== Sys2Proof/WellFormed.lean ====
section
/-!
DEFINITION. When a 16-bit word is an instruction (30_encoding R95, R96): the opcode table's rows of match and mask.
The operand types of `Instr` hold exactly what the encoding's fields can hold, so no `Instr` is ill-formed;
what can be ill-formed is a WORD, and this file says when it is.
-/
namespace Sys2Proof

/-- One row of the opcode map (R95): a word `op` is the row's instruction exactly when `op & mask = code`. -/
structure OpRow where
  code : Word
  mask : Word
  deriving DecidableEq, Repr

/-- `op & mask == match` (R95). -/
def OpRow.matches (r : OpRow) (op : Word) : Bool := op &&& r.mask == r.code

/-- The row of each instruction (R95). -/
def Instr.row : Instr → OpRow
  | .cls => ⟨0x00E0#16, 0xFFFF#16⟩  -- 00E0
  | .ret => ⟨0x00EE#16, 0xFFFF#16⟩  -- 00EE
  | .jp _ => ⟨0x1000#16, 0xF000#16⟩  -- 1nnn
  | .call _ => ⟨0x2000#16, 0xF000#16⟩  -- 2nnn
  | .seImm _ _ => ⟨0x3000#16, 0xF000#16⟩  -- 3xkk
  | .sneImm _ _ => ⟨0x4000#16, 0xF000#16⟩  -- 4xkk
  | .seReg _ _ => ⟨0x5000#16, 0xF00F#16⟩  -- 5xy0
  | .ldImm _ _ => ⟨0x6000#16, 0xF000#16⟩  -- 6xkk
  | .addImm _ _ => ⟨0x7000#16, 0xF000#16⟩  -- 7xkk
  | .ldReg _ _ => ⟨0x8000#16, 0xF00F#16⟩  -- 8xy0
  | .orReg _ _ => ⟨0x8001#16, 0xF00F#16⟩  -- 8xy1
  | .andReg _ _ => ⟨0x8002#16, 0xF00F#16⟩  -- 8xy2
  | .xorReg _ _ => ⟨0x8003#16, 0xF00F#16⟩  -- 8xy3
  | .addReg _ _ => ⟨0x8004#16, 0xF00F#16⟩  -- 8xy4
  | .subReg _ _ => ⟨0x8005#16, 0xF00F#16⟩  -- 8xy5
  | .shr _ _ => ⟨0x8006#16, 0xF00F#16⟩  -- 8xy6
  | .subnReg _ _ => ⟨0x8007#16, 0xF00F#16⟩  -- 8xy7
  | .shl _ _ => ⟨0x800E#16, 0xF00F#16⟩  -- 8xyE
  | .sneReg _ _ => ⟨0x9000#16, 0xF00F#16⟩  -- 9xy0
  | .ldI _ => ⟨0xA000#16, 0xF000#16⟩  -- Annn
  | .jpV0 _ => ⟨0xB000#16, 0xF000#16⟩  -- Bnnn
  | .rnd _ _ => ⟨0xC000#16, 0xF000#16⟩  -- Cxkk
  | .drw _ _ _ => ⟨0xD000#16, 0xF000#16⟩  -- Dxyn
  | .skp _ => ⟨0xE09E#16, 0xF0FF#16⟩  -- Ex9E
  | .sknp _ => ⟨0xE0A1#16, 0xF0FF#16⟩  -- ExA1
  | .ldFromDT _ => ⟨0xF007#16, 0xF0FF#16⟩  -- Fx07
  | .ldKey _ => ⟨0xF00A#16, 0xF0FF#16⟩  -- Fx0A
  | .ldDT _ => ⟨0xF015#16, 0xF0FF#16⟩  -- Fx15
  | .ldST _ => ⟨0xF018#16, 0xF0FF#16⟩  -- Fx18
  | .addI _ => ⟨0xF01E#16, 0xF0FF#16⟩  -- Fx1E
  | .ldF _ => ⟨0xF029#16, 0xF0FF#16⟩  -- Fx29
  | .ldB _ => ⟨0xF033#16, 0xF0FF#16⟩  -- Fx33
  | .storeRegs _ => ⟨0xF055#16, 0xF0FF#16⟩  -- Fx55
  | .loadRegs _ => ⟨0xF065#16, 0xF0FF#16⟩  -- Fx65

/-- The rows of R95, in its order. -/
def opTable : List OpRow :=
  [⟨0x00E0#16, 0xFFFF#16⟩, ⟨0x00EE#16, 0xFFFF#16⟩, ⟨0x1000#16, 0xF000#16⟩, ⟨0x2000#16, 0xF000#16⟩,
   ⟨0x3000#16, 0xF000#16⟩, ⟨0x4000#16, 0xF000#16⟩, ⟨0x5000#16, 0xF00F#16⟩, ⟨0x6000#16, 0xF000#16⟩,
   ⟨0x7000#16, 0xF000#16⟩, ⟨0x8000#16, 0xF00F#16⟩, ⟨0x8001#16, 0xF00F#16⟩, ⟨0x8002#16, 0xF00F#16⟩] ++
  [⟨0x8003#16, 0xF00F#16⟩, ⟨0x8004#16, 0xF00F#16⟩, ⟨0x8005#16, 0xF00F#16⟩, ⟨0x8006#16, 0xF00F#16⟩,
   ⟨0x8007#16, 0xF00F#16⟩, ⟨0x800E#16, 0xF00F#16⟩, ⟨0x9000#16, 0xF00F#16⟩, ⟨0xA000#16, 0xF000#16⟩,
   ⟨0xB000#16, 0xF000#16⟩, ⟨0xC000#16, 0xF000#16⟩, ⟨0xD000#16, 0xF000#16⟩, ⟨0xE09E#16, 0xF0FF#16⟩] ++
  [⟨0xE0A1#16, 0xF0FF#16⟩, ⟨0xF007#16, 0xF0FF#16⟩, ⟨0xF00A#16, 0xF0FF#16⟩, ⟨0xF015#16, 0xF0FF#16⟩,
   ⟨0xF018#16, 0xF0FF#16⟩, ⟨0xF01E#16, 0xF0FF#16⟩, ⟨0xF029#16, 0xF0FF#16⟩, ⟨0xF033#16, 0xF0FF#16⟩,
   ⟨0xF055#16, 0xF0FF#16⟩, ⟨0xF065#16, 0xF0FF#16⟩]

/-- A word is an instruction exactly when it matches a row of the table; every other word is an unknown opcode (R96). -/
def wellFormedWord (op : Word) : Bool := opTable.any (·.matches op)

end Sys2Proof
end

