-- ==== Sys2Proof/Certificates/Slice0/Obligations.lean ====
section
/-!
DEFINITION. The statements for the provers: what the rules of the spec say each instruction, the step and the host's operations
do. Registers, flags and sums are stated over the naturals; addition on `pc` and `I` is on their 16 bits. A statement that
rests on a decision the spec marks as its own (92_eei_decisions, log 12) or on a choice of the model says so.
-/
open Sys2Proof Sys2Proof.Machine

/-! ### Encoding -/

/-- Words written out in 30_encoding and 95_test_vectors decode to the instructions they stand for, one of each family; and a
word of bytes is read with its first byte most significant. -/
def Obligations.WrittenWordsDecode : Prop :=
  decodeWord 0x00E0#16 = .ok .cls ∧ decodeWord 0x00EE#16 = .ok .ret ∧ decodeWord 0x1204#16 = .ok (.jp 0x204#12) ∧
  decodeWord 0x4311#16 = .ok (.sneImm 3 0x11#8) ∧ decodeWord 0x80F4#16 = .ok (.addReg 0 15) ∧
  decodeWord 0x812E#16 = .ok (.shl 1 2) ∧ decodeWord 0xF255#16 = .ok (.storeRegs 2) ∧
  decodeWord 0xD012#16 = .ok (.drw 0 1 2) ∧ decodeWord 0xE2A1#16 = .ok (.sknp 2) ∧ decodeWord 0xF30A#16 = .ok (.ldKey 3) ∧
  decodeWord 0x8128#16 = .error (.unknownOpcode 0x8128#16) ∧
  decode [0xA2#8, 0x0C#8, 0x60#8] = .ok (.ldI 0x20C#12, [0x60#8])

/-- Every instruction is read back from its word, and from its two bytes whatever follows them (R95, R100). -/
def Obligations.EncodeThenDecodeReturnsTheInstruction : Prop :=
  ∀ i : Instr, decodeWord (encode i) = .ok i ∧ ∀ rest, decode (encodeBytes i ++ rest) = .ok (i, rest)

/-- No bit of a word is dropped by the decoder: the word of the instruction it reads is the word it read, so two words never
decode to the same instruction (R95, R100). This rests on the model's own reading, marked DEDUCED in log 13: `8xy6` and `8xyE`
keep the field `y`, which their effect ignores (R99), in the instruction; the spec does not say that they do. -/
def Obligations.DecodedInstructionEncodesToItsWord : Prop :=
  ∀ (op : Word) (i : Instr), decodeWord op = .ok i → encode i = op

/-- The cascade of R100 is equivalent to the match and mask table of R95: a word that matches a row decodes to an instruction of
that row and of no other; every other word is rejected as an unknown opcode, by its own name. -/
def Obligations.DecoderAgreesWithMatchAndMask : Prop :=
  ∀ op : Word,
    (∀ r ∈ opTable, r.matches op = true → ∃ i, decodeWord op = .ok i ∧ i.row = r) ∧
    (wellFormedWord op = false → decodeWord op = .error (.unknownOpcode op))

/-! ### The step -/

/-- Fetch reads the two bytes at `pc` and `pc + 1`, the first most significant, whatever the alignment of `pc`; it succeeds
exactly when `pc <= 0xFFE` (R91). -/
def Obligations.FetchIsBigEndianAndBounded : Prop :=
  ∀ s : State,
    (s.pc.toNat ≤ 0xFFE → ∃ op, s.fetch = .ok op ∧
      op.toNat = 256 * (s.mem.read s.pc.toNat).toNat + (s.mem.read (s.pc.toNat + 1)).toNat) ∧
    (s.pc.toNat = 0xFFF → s.fetch = .error (.outOfBounds 0x1000#16)) ∧
    (4096 ≤ s.pc.toNat → s.fetch = .error (.outOfBounds s.pc))

/-- When a running core fetches a word that decodes to an instruction, the step is the execution of that instruction, and it
emits no diagnostic. Nothing stands around the execution: there is no delay slot and no second program counter. -/
def Obligations.StepRunsTheDecodedInstruction : Prop :=
  ∀ (s : State) (i : Instr), s.run = .running → s.pc.toNat ≤ 0xFFE →
    decodeWord (s.mem.read s.pc.toNat ++ s.mem.read (s.pc.toNat + 1)) = .ok i →
    step s = exec i s ∧ s.diagnostic = none

/-- The step of a word that matches no row of the table emits UnknownOpcode with its address and the word, advances `pc` by 2
and changes nothing else (R97). -/
def Obligations.UnknownOpcodeIsAReportedNoOp : Prop :=
  ∀ (s : State) (op : Word), s.run = .running → s.pc.toNat ≤ 0xFFE →
    op = s.mem.read s.pc.toNat ++ s.mem.read (s.pc.toNat + 1) → wellFormedWord op = false →
    (∃ t, step s = .next t ∧ t.pc = s.pc + 2#16 ∧ SameExcept [.pc] s t) ∧ s.diagnostic = some (.unknownOpcode s.pc op)

/-- A running core whose `pc` is beyond 0xFFE takes OutOfBounds in its step: code 1, the address `pc`, and as info the first of
`pc`, `pc + 1` outside memory; nothing else changes, nothing is reported. The record and the halt are the spec's decisions D5,
D6 (log 12). -/
def Obligations.FetchBeyondMemoryFaults : Prop :=
  ∀ s : State, s.run = .running → 0xFFE < s.pc.toNat →
    (∃ t, step s = .next t ∧ FaultTaken 1#2 (if s.pc.toNat = 0xFFF then 0x1000#16 else s.pc) s t) ∧ s.diagnostic = none

/-- While halted a step changes nothing and emits nothing; a tick or a key event leaves the core halted with its fault record. The spec's decisions D5, D29 (log 12). -/
def Obligations.HaltedCoreStaysHalted : Prop :=
  ∀ s : State, s.run = .halted →
    step s = .next s ∧ s.diagnostic = none ∧ s.tickTimer.run = .halted ∧ s.tickTimer.fault = s.fault ∧
    ∀ k down, (s.setKey k down).run = .halted ∧ (s.setKey k down).fault = s.fault

/-- Fault entry writes the record (cause code, `pc`, info) and `run`, and nothing else, for each of the three faults. The codes
and the record are the spec's decisions D5, D6 (log 12). -/
def Obligations.FaultEntryRecordsAndHalts : Prop :=
  ∀ (s : State) (a : Word),
    FaultTaken 1#2 a s (s.faultEntry (.outOfBounds a)) ∧
    FaultTaken 2#2 0#16 s (s.faultEntry .stackOverflow) ∧
    FaultTaken 3#2 0#16 s (s.faultEntry .stackUnderflow)

/-- From every state a step answers a next state: it never stops with a host fault and never refuses (93: every state and every
word has a defined next state). -/
def Obligations.EveryStateHasANextState : Prop := ∀ s : State, ∃ t, step s = .next t

/-! ### Control transfer -/

/-- `1nnn` (R112). -/
def Obligations.JumpSetsPc : Prop :=
  ∀ (nnn : BitVec 12) (s : State),
    decodeWord (0x1#4 ++ nnn) = .ok (.jp nnn) ∧
    ∃ t, exec (.jp nnn) s = .next t ∧ t.pc.toNat = nnn.toNat ∧ SameExcept [.pc] s t

/-- `Bnnn`: the sum is not masked to 12 bits, and the register is V0 whatever bits 11..8 hold (R114). The width of `pc` is the
spec's decision D1 (log 12). -/
def Obligations.JumpWithOffsetAddsVZero : Prop :=
  ∀ (nnn : BitVec 12) (s : State),
    decodeWord (0xB#4 ++ nnn) = .ok (.jpV0 nnn) ∧
    ∃ t, exec (.jpV0 nnn) s = .next t ∧ t.pc.toNat = nnn.toNat + (s.readV 0).toNat ∧ SameExcept [.pc] s t

/-- `2nnn`: with room on the stack it pushes `pc + 2` and jumps; with the stack full it raises StackOverflow (R113). -/
def Obligations.CallPushesTheReturnAddress : Prop :=
  ∀ (nnn : BitVec 12) (s : State),
    decodeWord (0x2#4 ++ nnn) = .ok (.call nnn) ∧
    (s.sp.val < 16 → ∃ t, exec (.call nnn) s = .next t ∧ t.sp.val = s.sp.val + 1 ∧
      (∀ k : Fin 16, t.stack[k] = if k.val = s.sp.val then s.pc + 2#16 else s.stack[k]) ∧
      t.pc.toNat = nnn.toNat ∧ SameExcept [.stack, .pc] s t) ∧
    (s.sp = 16 → exec (.call nnn) s = .next (s.faultEntry .stackOverflow))

/-- `00EE`: with an entry on the stack it pops the newest into `pc`, every entry keeping its value; with the stack empty it
raises StackUnderflow (R111). -/
def Obligations.ReturnPopsIntoPc : Prop :=
  ∀ s : State,
    decodeWord 0x00EE#16 = .ok .ret ∧
    (0 < s.sp.val → ∃ t, exec .ret s = .next t ∧ t.sp.val + 1 = s.sp.val ∧ t.stack = s.stack ∧
      (∀ k : Fin 16, k.val + 1 = s.sp.val → t.pc = s.stack[k]) ∧ SameExcept [.stack, .pc] s t) ∧
    (s.sp = 0 → exec .ret s = .next (s.faultEntry .stackUnderflow))

/-- "`2nnn` followed immediately by `00EE` returns PC to the address immediately after the original `2nnn`" (R113), said of two
steps: the word at `pc` is `2nnn`, the bytes at `nnn` are `00EE`, and the stack has room. -/
def Obligations.CallThenReturnComesBack : Prop :=
  ∀ (nnn : BitVec 12) (s : State), s.run = .running → s.sp.val < 16 → s.fetch = .ok (0x2#4 ++ nnn) →
    nnn.toNat ≤ 0xFFE → s.mem.read nnn.toNat = 0x00#8 → s.mem.read (nnn.toNat + 1) = 0xEE#8 →
    ∃ t u, step s = .next t ∧ step t = .next u ∧ u.pc = s.pc + 2#16 ∧ u.sp = s.sp ∧ SameExcept [.pc, .stack] s u

/-! ### Skips -/

/-- `3xkk` and `4xkk` (R121, R122). -/
def Obligations.SkipsOnAnImmediate : Prop :=
  ∀ (x : RegIdx) (kk : Byte) (s : State),
    decodeWord (0x3#4 ++ regBits x ++ kk) = .ok (.seImm x kk) ∧ decodeWord (0x4#4 ++ regBits x ++ kk) = .ok (.sneImm x kk) ∧
    (∃ t, exec (.seImm x kk) s = .next t ∧ t.pc = s.pc + (if s.readV x = kk then 4#16 else 2#16) ∧ SameExcept [.pc] s t) ∧
    (∃ t, exec (.sneImm x kk) s = .next t ∧ t.pc = s.pc + (if s.readV x = kk then 2#16 else 4#16) ∧ SameExcept [.pc] s t)

/-- `5xy0` and `9xy0`, and the words `5xyN`, `9xyN` with `N` not 0 are unknown opcodes (R123, R124). -/
def Obligations.SkipsOnTwoRegisters : Prop :=
  ∀ (x y : RegIdx) (n : BitVec 4) (s : State),
    decodeWord (0x5#4 ++ regBits x ++ regBits y ++ n) =
      (if n = 0#4 then .ok (.seReg x y) else .error (.unknownOpcode (0x5#4 ++ regBits x ++ regBits y ++ n))) ∧
    decodeWord (0x9#4 ++ regBits x ++ regBits y ++ n) =
      (if n = 0#4 then .ok (.sneReg x y) else .error (.unknownOpcode (0x9#4 ++ regBits x ++ regBits y ++ n))) ∧
    (∃ t, exec (.seReg x y) s = .next t ∧ t.pc = s.pc + (if s.readV x = s.readV y then 4#16 else 2#16) ∧
      SameExcept [.pc] s t) ∧
    (∃ t, exec (.sneReg x y) s = .next t ∧ t.pc = s.pc + (if s.readV x = s.readV y then 2#16 else 4#16) ∧
      SameExcept [.pc] s t)

/-- `Ex9E` and `ExA1` test the key whose code is the value of `Vx`; a value of 16 or more names no key and is not pressed
(R182, R183; for those values R180, the spec's decision D15, log 12). -/
def Obligations.SkipsOnAKey : Prop :=
  ∀ (x : RegIdx) (s : State),
    decodeWord (0xE#4 ++ regBits x ++ 0x9E#8) = .ok (.skp x) ∧ decodeWord (0xE#4 ++ regBits x ++ 0xA1#8) = .ok (.sknp x) ∧
    ∃ t u, exec (.skp x) s = .next t ∧ exec (.sknp x) s = .next u ∧ SameExcept [.pc] s t ∧ SameExcept [.pc] s u ∧
      (∀ k : KeyCode, (s.readV x).toNat = k.val →
        t.pc = s.pc + (if s.key[k] = true then 4#16 else 2#16) ∧ u.pc = s.pc + (if s.key[k] = true then 2#16 else 4#16)) ∧
      (16 ≤ (s.readV x).toNat → t.pc = s.pc + 2#16 ∧ u.pc = s.pc + 4#16)

/-! ### Register load, arithmetic, logic, shift, random -/

/-- `6xkk` and `7xkk`: the sum is modulo 256 and no flag is written; the one and then the other leave twice `kk` (R131,
R132). -/
def Obligations.LoadAndAddAnImmediate : Prop :=
  ∀ (x : RegIdx) (kk : Byte) (s : State),
    decodeWord (0x6#4 ++ regBits x ++ kk) = .ok (.ldImm x kk) ∧ decodeWord (0x7#4 ++ regBits x ++ kk) = .ok (.addImm x kk) ∧
    (∃ t, exec (.ldImm x kk) s = .next t ∧ t.readV x = kk ∧ t.pc = s.pc + 2#16 ∧
      SameRegsExcept [x] s t ∧ SameExcept [.v, .pc] s t) ∧
    (∃ t, exec (.addImm x kk) s = .next t ∧ (t.readV x).toNat = ((s.readV x).toNat + kk.toNat) % 256 ∧ t.pc = s.pc + 2#16 ∧
      SameRegsExcept [x] s t ∧ SameExcept [.v, .pc] s t) ∧
    (∃ t u, exec (.ldImm x kk) s = .next t ∧ exec (.addImm x kk) t = .next u ∧ (u.readV x).toNat = 2 * kk.toNat % 256)

/-- `8xy0` to `8xy3`: VF is left as it was unless it is the destination (R133 to R136). -/
def Obligations.CopyAndBitwiseLogic : Prop :=
  ∀ (x y : RegIdx) (s : State),
    decodeWord (0x8#4 ++ regBits x ++ regBits y ++ 0x0#4) = .ok (.ldReg x y) ∧
    decodeWord (0x8#4 ++ regBits x ++ regBits y ++ 0x1#4) = .ok (.orReg x y) ∧
    decodeWord (0x8#4 ++ regBits x ++ regBits y ++ 0x2#4) = .ok (.andReg x y) ∧
    decodeWord (0x8#4 ++ regBits x ++ regBits y ++ 0x3#4) = .ok (.xorReg x y) ∧
    (∃ t, exec (.ldReg x y) s = .next t ∧ t.readV x = s.readV y ∧ t.pc = s.pc + 2#16 ∧
      SameRegsExcept [x] s t ∧ SameExcept [.v, .pc] s t) ∧
    (∃ t, exec (.orReg x y) s = .next t ∧ t.readV x = s.readV x ||| s.readV y ∧ t.pc = s.pc + 2#16 ∧
      SameRegsExcept [x] s t ∧ SameExcept [.v, .pc] s t) ∧
    (∃ t, exec (.andReg x y) s = .next t ∧ t.readV x = s.readV x &&& s.readV y ∧ t.pc = s.pc + 2#16 ∧
      SameRegsExcept [x] s t ∧ SameExcept [.v, .pc] s t) ∧
    (∃ t, exec (.xorReg x y) s = .next t ∧ t.readV x = s.readV x ^^^ s.readV y ∧ t.pc = s.pc + 2#16 ∧
      SameRegsExcept [x] s t ∧ SameExcept [.v, .pc] s t)

/-- `8xy4`: the sum modulo 256 in `Vx`, the carry in VF; with `x = 0xF` the sum is what VF holds (R137). -/
def Obligations.AddReportsTheCarry : Prop :=
  ∀ (x y : RegIdx) (s : State),
    decodeWord (0x8#4 ++ regBits x ++ regBits y ++ 0x4#4) = .ok (.addReg x y) ∧
    ∃ t, exec (.addReg x y) s = .next t ∧
      (t.readV x).toNat = ((s.readV x).toNat + (s.readV y).toNat) % 256 ∧
      (x ≠ 15 → (t.readV 15).toNat = if 255 < (s.readV x).toNat + (s.readV y).toNat then 1 else 0) ∧
      t.pc = s.pc + 2#16 ∧ SameRegsExcept [x, 15] s t ∧ SameExcept [.v, .pc] s t

/-- `8xy5` and `8xy7`: the difference modulo 256 in `Vx`, 1 in VF when no borrow is needed, equality included; with `x = 0xF`
the difference is what VF holds (R138, R140). -/
def Obligations.SubtractReportsNoBorrow : Prop :=
  ∀ (x y : RegIdx) (s : State),
    decodeWord (0x8#4 ++ regBits x ++ regBits y ++ 0x5#4) = .ok (.subReg x y) ∧
    decodeWord (0x8#4 ++ regBits x ++ regBits y ++ 0x7#4) = .ok (.subnReg x y) ∧
    (∃ t, exec (.subReg x y) s = .next t ∧
      (t.readV x).toNat = ((s.readV x).toNat + 256 - (s.readV y).toNat) % 256 ∧
      (x ≠ 15 → (t.readV 15).toNat = if (s.readV y).toNat ≤ (s.readV x).toNat then 1 else 0) ∧
      t.pc = s.pc + 2#16 ∧ SameRegsExcept [x, 15] s t ∧ SameExcept [.v, .pc] s t) ∧
    (∃ t, exec (.subnReg x y) s = .next t ∧
      (t.readV x).toNat = ((s.readV y).toNat + 256 - (s.readV x).toNat) % 256 ∧
      (x ≠ 15 → (t.readV 15).toNat = if (s.readV x).toNat ≤ (s.readV y).toNat then 1 else 0) ∧
      t.pc = s.pc + 2#16 ∧ SameRegsExcept [x, 15] s t ∧ SameExcept [.v, .pc] s t)

/-- `8xy6` and `8xyE`: one place, the bit shifted out in VF as 0 or 1, whatever the field `y` holds; with `x = 0xF` the shifted
value is what VF holds (R139, R141; that `Vy` takes no part is the spec's decision D8, log 12). -/
def Obligations.ShiftsReportTheLostBit : Prop :=
  ∀ (x y : RegIdx) (s : State),
    decodeWord (0x8#4 ++ regBits x ++ regBits y ++ 0x6#4) = .ok (.shr x y) ∧
    decodeWord (0x8#4 ++ regBits x ++ regBits y ++ 0xE#4) = .ok (.shl x y) ∧
    (∃ t, exec (.shr x y) s = .next t ∧ (t.readV x).toNat = (s.readV x).toNat / 2 ∧
      (x ≠ 15 → (t.readV 15).toNat = (s.readV x).toNat % 2) ∧
      t.pc = s.pc + 2#16 ∧ SameRegsExcept [x, 15] s t ∧ SameExcept [.v, .pc] s t) ∧
    (∃ t, exec (.shl x y) s = .next t ∧ (t.readV x).toNat = (s.readV x).toNat * 2 % 256 ∧
      (x ≠ 15 → (t.readV 15).toNat = (s.readV x).toNat / 128) ∧
      t.pc = s.pc + 2#16 ∧ SameRegsExcept [x, 15] s t ∧ SameExcept [.v, .pc] s t)

/-- `Cxkk`: the random byte of this draw AND `kk`, and one draw more (R142). The random byte is the model's free value
`Config.randomByte` and the counter its own (log 2): the statement holds for every value of both. -/
def Obligations.RandomIsMasked : Prop :=
  ∀ (x : RegIdx) (kk : Byte) (s : State),
    decodeWord (0xC#4 ++ regBits x ++ kk) = .ok (.rnd x kk) ∧
    ∃ t, exec (.rnd x kk) s = .next t ∧
      (∀ k, (t.readV x).getLsbD k = ((Config.randomByte s.draws).getLsbD k && kk.getLsbD k)) ∧
      t.draws = s.draws + 1 ∧ t.pc = s.pc + 2#16 ∧ SameRegsExcept [x] s t ∧ SameExcept [.v, .pc, .draws] s t

/-! ### Index register and memory -/

/-- `Annn` (R151). -/
def Obligations.LoadIndexWithAnAddress : Prop :=
  ∀ (nnn : BitVec 12) (s : State),
    decodeWord (0xA#4 ++ nnn) = .ok (.ldI nnn) ∧
    ∃ t, exec (.ldI nnn) s = .next t ∧ t.i.toNat = nnn.toNat ∧ t.pc = s.pc + 2#16 ∧ SameExcept [.i, .pc] s t

/-- `Fx1E` adds modulo 65536 and writes no flag; `Fx29` multiplies the whole byte by 5 (R152, R153). No flag and no mask are the
spec's decisions D2, D16 (log 12). -/
def Obligations.IndexArithmetic : Prop :=
  ∀ (x : RegIdx) (s : State),
    decodeWord (0xF#4 ++ regBits x ++ 0x1E#8) = .ok (.addI x) ∧ decodeWord (0xF#4 ++ regBits x ++ 0x29#8) = .ok (.ldF x) ∧
    (∃ t, exec (.addI x) s = .next t ∧ t.i.toNat = (s.i.toNat + (s.readV x).toNat) % 65536 ∧ t.pc = s.pc + 2#16 ∧
      SameExcept [.i, .pc] s t) ∧
    (∃ t, exec (.ldF x) s = .next t ∧ t.i.toNat = (s.readV x).toNat * 5 ∧ t.pc = s.pc + 2#16 ∧ SameExcept [.i, .pc] s t)

/-- `Fx33`: with the three bytes within memory, the hundreds, tens and ones digits of `Vx` are stored at `I`, `I + 1`, `I + 2`;
otherwise OutOfBounds is raised and nothing is written (R154). Memory in its canonical form is an invariant
(`StepKeepsTheInvariant`). -/
def Obligations.DecimalDigitsAreStored : Prop :=
  ∀ (x : RegIdx) (s : State), s.mem.wf = true →
    decodeWord (0xF#4 ++ regBits x ++ 0x33#8) = .ok (.ldB x) ∧
    (s.i.toNat + 2 < 4096 → ∃ t, exec (.ldB x) s = .next t ∧
      (s.readV x).toNat = 100 * (t.mem.read s.i.toNat).toNat + 10 * (t.mem.read (s.i.toNat + 1)).toNat +
        (t.mem.read (s.i.toNat + 2)).toNat ∧
      (t.mem.read s.i.toNat).toNat ≤ 2 ∧ (t.mem.read (s.i.toNat + 1)).toNat ≤ 9 ∧ (t.mem.read (s.i.toNat + 2)).toNat ≤ 9 ∧
      t.pc = s.pc + 2#16 ∧ SameBytesOutside s.i.toNat 3 s t ∧ SameExcept [.mem, .pc] s t) ∧
    (4096 ≤ s.i.toNat + 2 → exec (.ldB x) s = .next (s.faultEntry (.outOfBounds (BitVec.ofNat 16 (max s.i.toNat 4096)))))

/-- `Fx55`: with the `x + 1` bytes within memory, V0 to Vx are stored from `I` on and `I` is unchanged; otherwise OutOfBounds is
raised and nothing is written (R155). -/
def Obligations.RegistersAreStored : Prop :=
  ∀ (x : RegIdx) (s : State), s.mem.wf = true →
    decodeWord (0xF#4 ++ regBits x ++ 0x55#8) = .ok (.storeRegs x) ∧
    (s.i.toNat + x.val < 4096 → ∃ t, exec (.storeRegs x) s = .next t ∧
      (∀ k : RegIdx, k ≤ x → t.mem.read (s.i.toNat + k.val) = s.readV k) ∧
      t.pc = s.pc + 2#16 ∧ SameBytesOutside s.i.toNat (x.val + 1) s t ∧ SameExcept [.mem, .pc] s t) ∧
    (4096 ≤ s.i.toNat + x.val →
      exec (.storeRegs x) s = .next (s.faultEntry (.outOfBounds (BitVec.ofNat 16 (max s.i.toNat 4096)))))

/-- `Fx65`: with the `x + 1` bytes within memory, V0 to Vx are loaded from `I` on, the registers above `x` and `I` are
unchanged; otherwise OutOfBounds is raised and no register is loaded (R156). -/
def Obligations.RegistersAreLoaded : Prop :=
  ∀ (x : RegIdx) (s : State),
    decodeWord (0xF#4 ++ regBits x ++ 0x65#8) = .ok (.loadRegs x) ∧
    (s.i.toNat + x.val < 4096 → ∃ t, exec (.loadRegs x) s = .next t ∧
      (∀ r : RegIdx, t.readV r = if r ≤ x then s.mem.read (s.i.toNat + r.val) else s.readV r) ∧
      t.pc = s.pc + 2#16 ∧ SameExcept [.v, .pc] s t) ∧
    (4096 ≤ s.i.toNat + x.val →
      exec (.loadRegs x) s = .next (s.faultEntry (.outOfBounds (BitVec.ofNat 16 (max s.i.toNat 4096)))))

/-- `Fx55` and then `Fx65` with the same `x` on the state it leaves, with any registers in between, brings V0 to Vx back. -/
def Obligations.StoredRegistersLoadBack : Prop :=
  ∀ (x : RegIdx) (s t : State) (w : Vector Byte 16), s.mem.wf = true → s.i.toNat + x.val < 4096 →
    exec (.storeRegs x) s = .next t →
    ∃ u, exec (.loadRegs x) (t.setRegs w) = .next u ∧ ∀ r : RegIdx, u.readV r = if r ≤ x then s.readV r else w[r]

/-- A store is seen by the very next fetch: after `Fx55` has written over the two bytes at the new `pc`, the fetch reads the
registers stored there (R76; the spec's decision D24, log 12). -/
def Obligations.StoreIsSeenByTheNextFetch : Prop :=
  ∀ (x k j : RegIdx) (s t : State), s.mem.wf = true → exec (.storeRegs x) s = .next t → t.run ≠ .halted →
    j ≤ x → j.val = k.val + 1 → t.pc.toNat = s.i.toNat + k.val → t.fetch = .ok (s.readV k ++ s.readV j)

/-! ### Display -/

/-- `00E0`: all 2048 pixels 0, VF not written (R164). -/
def Obligations.ClearTurnsEveryPixelOff : Prop :=
  ∀ s : State,
    decodeWord 0x00E0#16 = .ok .cls ∧
    ∃ t, exec .cls s = .next t ∧ (∀ row col, getPixel t.fb row col = false) ∧ t.pc = s.pc + 2#16 ∧ SameExcept [.fb, .pc] s t

/-- `Dxyn`: with the `n` sprite bytes within memory (always, when `n = 0`), each pixel is XORed with the sprite's bit over it,
wrapped on both axes, and VF is 1 when some lit pixel was turned off, else 0; otherwise OutOfBounds is raised and nothing is
drawn (R165, R162). The bound check and `n = 0` are the spec's decisions D3, D4, D23 (log 12). -/
def Obligations.DrawXorsTheSprite : Prop :=
  ∀ (x y : RegIdx) (n : Fin 16) (s : State),
    let rows := (List.range n.val).map fun r => s.mem.read (s.i.toNat + r)
    let lit := SpriteLights (s.readV x).toNat (s.readV y).toNat rows
    decodeWord (0xD#4 ++ regBits x ++ regBits y ++ regBits n) = .ok (.drw x y n) ∧
    (n.val = 0 ∨ s.i.toNat + n.val ≤ 4096 → ∃ t, exec (.drw x y n) s = .next t ∧
      (∀ row col, getPixel t.fb row col = (getPixel s.fb row col ^^ decide (lit row col))) ∧
      ((∃ row col, getPixel s.fb row col = true ∧ lit row col) → t.readV 15 = 1#8) ∧
      ((∀ row col, lit row col → getPixel s.fb row col = false) → t.readV 15 = 0#8) ∧
      t.pc = s.pc + 2#16 ∧ SameRegsExcept [15] s t ∧ SameExcept [.v, .fb, .pc] s t) ∧
    (0 < n.val ∧ 4096 < s.i.toNat + n.val →
      exec (.drw x y n) s = .next (s.faultEntry (.outOfBounds (BitVec.ofNat 16 (max s.i.toNat 4096)))))

/-- Drawing the same sprite twice at the same origin returns the framebuffer to its state before, and the second draw collides
exactly when the first left a sprite-lit pixel on (R163 (b)). -/
def Obligations.DrawingTwiceRestoresTheScreen : Prop :=
  ∀ (fb : Framebuffer) (ox oy : Nat) (rows : List Byte), rows.length ≤ 15 →
    let first := draw fb ox oy rows
    let second := draw first.1 ox oy rows
    second.1 = fb ∧ (second.2 = true ↔ ∃ row col, SpriteLights ox oy rows row col ∧ getPixel first.1 row col = true)

/-! ### Keypad and timers -/

/-- `Fx0A` with a key down: the lowest code goes to `Vx` in the same step, `run` stays as it is (R184; the test of the level is
the spec's decision D14, log 12). -/
def Obligations.KeyInstructionTakesTheLowestKey : Prop :=
  ∀ (x : RegIdx) (k : KeyCode) (s : State), s.key[k] = true → (∀ j : KeyCode, j < k → s.key[j] = false) →
    decodeWord (0xF#4 ++ regBits x ++ 0x0A#8) = .ok (.ldKey x) ∧
    ∃ t, exec (.ldKey x) s = .next t ∧ (t.readV x).toNat = k.val ∧ t.pc = s.pc + 2#16 ∧
      SameRegsExcept [x] s t ∧ SameExcept [.v, .pc] s t

/-- `Fx0A` with no key down: the core awaits a key for `Vx`, and `pc`, V and everything else stay (R184, D14). -/
def Obligations.KeyInstructionWaitsWithoutAKey : Prop :=
  ∀ (x : RegIdx) (s : State), (∀ k : KeyCode, s.key[k] = false) →
    ∃ t, exec (.ldKey x) s = .next t ∧ t.run = .awaitingKey x ∧ SameExcept [.run] s t

/-- A step while awaiting a key: nothing without a key down; with one, the lowest code goes to the register, `pc` advances by 2
and the core runs. Either way nothing is fetched or reported (R184, D14). -/
def Obligations.AwaitingStepCompletesOnAKey : Prop :=
  ∀ (r : RegIdx) (s : State), s.run = .awaitingKey r →
    s.diagnostic = none ∧
    ((∀ k : KeyCode, s.key[k] = false) → step s = .next s) ∧
    (∀ k : KeyCode, s.key[k] = true → (∀ j : KeyCode, j < k → s.key[j] = false) →
      ∃ t, step s = .next t ∧ (t.readV r).toNat = k.val ∧ t.pc = s.pc + 2#16 ∧ t.run = .running ∧
        SameRegsExcept [r] s t ∧ SameExcept [.v, .pc, .run] s t)

/-- Awaiting a key is observably the same as re-executing the `Fx0A` at an unchanged `pc`: from a state that meets the
invariant, the step of an awaiting core and the step of the same core running lead to the same state (R184, its derived
note). -/
def Obligations.AwaitingIsReexecution : Prop :=
  ∀ (r : RegIdx) (s : State), s.Inv → s.run = .awaitingKey r → step (s.setRun .running) = step s

/-- `Fx07`, `Fx15`, `Fx18`; after `Fx18` the tone is on exactly when the value is not 0 (R185, R186, R187). -/
def Obligations.TimersAreReadAndWritten : Prop :=
  ∀ (x : RegIdx) (s : State),
    decodeWord (0xF#4 ++ regBits x ++ 0x07#8) = .ok (.ldFromDT x) ∧
    decodeWord (0xF#4 ++ regBits x ++ 0x15#8) = .ok (.ldDT x) ∧ decodeWord (0xF#4 ++ regBits x ++ 0x18#8) = .ok (.ldST x) ∧
    (∃ t, exec (.ldFromDT x) s = .next t ∧ t.readV x = s.dt ∧ t.pc = s.pc + 2#16 ∧
      SameRegsExcept [x] s t ∧ SameExcept [.v, .pc] s t) ∧
    (∃ t, exec (.ldDT x) s = .next t ∧ t.dt = s.readV x ∧ t.pc = s.pc + 2#16 ∧ SameExcept [.dt, .pc] s t) ∧
    (∃ t, exec (.ldST x) s = .next t ∧ t.st = s.readV x ∧ (t.tone = true ↔ s.readV x ≠ 0#8) ∧ t.pc = s.pc + 2#16 ∧
      SameExcept [.st, .pc] s t)

/-- A tick counts each timer down by exactly 1 while above 0, and changes nothing else, in every run state (R216, R217; that
every run state takes it is the spec's decision D29, log 12). -/
def Obligations.TickCountsBothTimersDown : Prop :=
  ∀ s : State,
    s.tickTimer.dt.toNat = s.dt.toNat - 1 ∧ s.tickTimer.st.toNat = s.st.toNat - 1 ∧
    (s.tickTimer.tone = true ↔ 2 ≤ s.st.toNat) ∧ SameExcept [.dt, .st] s s.tickTimer

/-- A timer that holds `v` reaches 0 after exactly `v` ticks, if it is not written again (R218): `k` ticks leave `v - k`. -/
def Obligations.TimerReachesZeroAfterItsTicks : Prop :=
  ∀ (k : Nat) (s : State),
    ((Nat.repeat State.tickTimer k s).dt.toNat = s.dt.toNat - k) ∧ ((Nat.repeat State.tickTimer k s).st.toNat = s.st.toNat - k)

/-! ### Reset, load, the host's operations -/

/-- `reset()` in any state puts every piece of the core's state at its reset value, with the font in place (R240). -/
def Obligations.ResetRestoresEveryPiece : Prop :=
  ∀ s : State, let t := s.restart
    (∀ r, t.readV r = 0#8) ∧ t.i = 0#16 ∧ t.pc = 0x200#16 ∧ t.sp = 0 ∧ (∀ k : Fin 16, t.stack[k] = 0#16) ∧
    t.dt = 0#8 ∧ t.st = 0#8 ∧ t.tone = false ∧
    (∀ (d : Fin 16) (r : Fin 5), t.mem.read (d.val * 5 + r.val) = s.mem.font[d.val * 5 + r.val]) ∧
    (∀ a, 0x50 ≤ a → t.mem.read a = 0#8) ∧ (∀ row col, getPixel t.fb row col = false) ∧
    (∀ k : KeyCode, t.key[k] = false) ∧ t.run = .running ∧ t.fault = ⟨0#2, 0#16, 0#16⟩

/-- The machine after reset is the reset of any core with the model's default font (log 1), but for the model's own counter. -/
def Obligations.ResetStateIsARestart : Prop :=
  ∀ s : State, s.mem.font = defaultFont → { s.restart with draws := State.reset.draws } = State.reset

/-- `load(rom)` writes the first 3584 bytes of the ROM from 0x200 on and nothing else, and where it runs (directly after `reset`)
it reports the truncation to the host, which is true exactly when the ROM is longer (R242). -/
def Obligations.LoadCopiesTheRom : Prop :=
  ∀ (rom : List Byte) (s : State), s.mem.wf = true →
    (∀ k, (h : k < rom.length) → k < 3584 → (s.load rom).mem.read (0x200 + k) = rom[k]) ∧
    SameBytesOutside 0x200 (min rom.length 3584) s (s.load rom) ∧ SameExcept [.mem] s (s.load rom) ∧
    Session.report (.load rom) ⟨s, true⟩ = some (.loaded (romTruncated rom)) ∧
    (romTruncated rom = true ↔ 3584 < rom.length)

/-- What each operation reports to the host: a step its diagnostic (R204), `load` directly after `reset` the truncation (R205), a
`load` that is refused nothing, and the other operations nothing (R8; that a report is a function of the state before the
operation is the model's form of it, log 7). -/
def Obligations.OperationsReportToTheHost : Prop :=
  ∀ (c : Session) (rom : List Byte) (code : Nat) (down : Bool),
    c.report .step = c.core.diagnostic ∧
    (c.fresh = true → c.report (.load rom) = some (.loaded (romTruncated rom))) ∧
    (c.fresh = false → c.report (.load rom) = none) ∧
    c.report .reset = none ∧ c.report .tickTimer = none ∧ c.report (.setKey code down) = none

/-- `set_key` changes the one flag and nothing else, is idempotent, and is refused for a code above 15. `load` runs directly after
`reset`, with nothing in between, and is refused anywhere else: after every operation but `reset`, whichever it is, the core is
no longer fresh, and then `load` is refused (R219, R243; the refusals are the spec's decisions D33, D21, log 8, log 9). -/
def Obligations.HostOperationsKeepTheirDomains : Prop :=
  ∀ (c : Session) (code : Nat) (down : Bool) (rom : List Byte),
    (∀ h : code < 16, ∃ d, c.apply (.setKey code down) = .next d ∧
      (∀ k : KeyCode, d.core.key[k] = if k.val = code then down else c.core.key[k]) ∧
      SameExcept [.key] c.core d.core ∧ d.core.setKey ⟨code, h⟩ down = d.core) ∧
    (16 ≤ code → c.apply (.setKey code down) = .refused (.keyCodeOutOfRange code)) ∧
    (c.fresh = false → c.apply (.load rom) = .refused .loadNotAfterReset) ∧
    (∀ op d, op ≠ .reset → c.apply op = .next d → d.fresh = false ∧ d.apply (.load rom) = .refused .loadNotAfterReset) ∧
    (∃ d e, c.apply .reset = .next d ∧ d.apply (.load rom) = .next e ∧ e.core = c.core.restart.load rom ∧ e.fresh = false)

/-- Every sequence of steps, ticks, resets and key events with codes 0..15 runs to its end, whatever the order (R214). -/
def Obligations.EveryInterleavingRuns : Prop :=
  ∀ (ops : List Op) (c : Session),
    (∀ op ∈ ops, (∀ rom, op ≠ .load rom) ∧ ∀ code down, op = .setKey code down → code < 16) →
    ∃ d, Session.run ops c = .next d

/-! ### Rules about all instructions -/

/-- `pc` after an instruction is one of: absolute, for the four control transfers; `pc + 4` or `pc + 2`, for the six skips;
unchanged, with a fault or an unanswered `Fx0A`; and `pc + 2` for the others (R25). Where a transfer goes and when a skip is
taken, the statements about them say. -/
def Obligations.PcAdvancesInOneOfFourWays : Prop :=
  ∀ (i : Instr) (s t : State), s.run = .running → exec i s = .next t →
    (t.run = .running ∧ t.pc = s.pc + 2#16) ∨
    (t.run = .running ∧ t.pc = s.pc + 4#16 ∧ ∃ x y kk, i = .seImm x kk ∨ i = .sneImm x kk ∨ i = .seReg x y ∨
      i = .sneReg x y ∨ i = .skp x ∨ i = .sknp x) ∨
    (t.run = .running ∧ ∃ nnn, i = .jp nnn ∨ i = .call nnn ∨ i = .jpV0 nnn ∨ i = .ret) ∨
    (t.run = .halted ∧ t.pc = s.pc) ∨
    (∃ x, i = .ldKey x ∧ t.run = .awaitingKey x ∧ t.pc = s.pc)

/-- Faults are precise: an instruction that halts the core has had no effect but fault entry, and it is one of the six that can
raise (R208, R212; the spec's decision D4, log 12). -/
def Obligations.FaultsArePrecise : Prop :=
  ∀ (i : Instr) (s t : State), s.run ≠ .halted → exec i s = .next t → t.run = .halted →
    (∃ f, t = s.faultEntry f) ∧
    ∃ x y n nnn, i = .call nnn ∨ i = .ret ∨ i = .drw x y n ∨ i = .ldB x ∨ i = .storeRegs x ∨ i = .loadRegs x

/-- No instruction, key-wait step or unknown opcode changes the keypad (R220). -/
def Obligations.KeypadIsReadOnlyToTheCore : Prop :=
  ∀ s t : State, step s = .next t → t.key = s.key

/-- `I` is written by `Annn`, `Fx1E` and `Fx29` only, DT by `Fx15` only, ST by `Fx18` only, the call stack by `2nnn` and `00EE`
only (R23, R28, R29, R27, R38). -/
def Obligations.SpecialRegisterWriters : Prop :=
  ∀ (i : Instr) (s t : State), exec i s = .next t →
    (t.i ≠ s.i → ∃ x nnn, i = .ldI nnn ∨ i = .addI x ∨ i = .ldF x) ∧
    (t.dt ≠ s.dt → ∃ x, i = .ldDT x) ∧ (t.st ≠ s.st → ∃ x, i = .ldST x) ∧
    (t.sp ≠ s.sp ∨ t.stack ≠ s.stack → ∃ nnn, i = .call nnn ∨ i = .ret)

/-- Memory is written by `Fx33` and `Fx55` only, the framebuffer by `00E0` and `Dxyn` only (R37, R38, R160). -/
def Obligations.MemoryAndScreenWriters : Prop :=
  ∀ (i : Instr) (s t : State), exec i s = .next t →
    ((∃ a, t.mem.read a ≠ s.mem.read a) → ∃ x, i = .ldB x ∨ i = .storeRegs x) ∧
    (t.fb ≠ s.fb → ∃ x y n, i = .cls ∨ i = .drw x y n)

/-- VF changes only by the six instructions that write it as a flag, to 0 or 1 unless `x = 0xF`, or by an instruction that
names it as its destination (R21, R22; the order of the two writes is the spec's decision D7, log 12). -/
def Obligations.FlagRegisterWriters : Prop :=
  ∀ (i : Instr) (s t : State), exec i s = .next t → t.readV 15 ≠ s.readV 15 →
    ((∃ x y n, i = .addReg x y ∨ i = .subReg x y ∨ i = .subnReg x y ∨ i = .shr x y ∨ i = .shl x y ∨ i = .drw x y n) ∧
      (t.readV 15 = 0#8 ∨ t.readV 15 = 1#8)) ∨
    ∃ y kk, i = .addReg 15 y ∨ i = .subReg 15 y ∨ i = .subnReg 15 y ∨ i = .shr 15 y ∨ i = .shl 15 y ∨ i = .ldImm 15 kk ∨
      i = .addImm 15 kk ∨ i = .ldReg 15 y ∨ i = .orReg 15 y ∨ i = .andReg 15 y ∨ i = .xorReg 15 y ∨ i = .rnd 15 kk ∨
      i = .ldFromDT 15 ∨ i = .ldKey 15 ∨ i = .loadRegs 15

/-- The sound timer is read by no instruction: two states that differ in ST alone step to states that differ in ST alone
(R29). -/
def Obligations.SoundTimerIsNeverRead : Prop :=
  ∀ (s t : State) (b : Byte), step s = .next t → ∃ c, step (s.setST b) = .next (t.setST c)

/-- A finished program (running, the word at `pc` a jump to `pc`): every step leaves the whole state unchanged, and reports
nothing (R247, R112; what counts as finished is the spec's decision D26, log 12). -/
def Obligations.FinishedProgramStays : Prop :=
  ∀ s : State, s.Finished → step s = .next s ∧ s.diagnostic = none

/-! ### Invariants -/

/-- The invariant holds after reset, with any font. -/
def Obligations.ResetMeetsTheInvariant : Prop :=
  State.reset.Inv ∧ ∀ font, (Session.start font).Inv

/-- Every step from a state that meets the invariant, reachable or not, leads to one that meets it: memory stays canonical, `pc`
stays at most 0x10FE and return addresses at most 0x1000 (R26, R111), an awaiting core stays at its `Fx0A` (R184), and the fault
record says a fault exactly while halted (R34). -/
def Obligations.StepKeepsTheInvariant : Prop :=
  ∀ s t : State, s.Inv → step s = .next t → t.Inv

/-- Every operation of the host and of the timer clock keeps the invariant, so every interleaving does (R214). -/
def Obligations.EveryExecutionKeepsTheInvariant : Prop :=
  ∀ (ops : List Op) (c d : Session), c.Inv → Session.run ops c = .next d → d.Inv
end

