-- ==== Sys2Proof/Laws/Encoding.lean ====
section
/-!
SUPPORT. The fields of an encoded instruction, and what a table row's mask leaves of it, once for each format (30_encoding
R93, R94, R95).
-/
namespace Sys2Proof

/-! ### Parts of a word written as four nibbles -/

theorem append3_high (a b : BitVec 4) (c : Byte) : ((a ++ b ++ c : Word)).extractLsb' 12 4 = a :=
  (BitVec.extractLsb'_append_eq_of_le (xhi := a ++ b) (xlo := c) (by decide)).trans BitVec.extractLsb'_append_eq_left

theorem append3_mid (a b : BitVec 4) (c : Byte) : ((a ++ b ++ c : Word)).extractLsb' 8 4 = b :=
  (BitVec.extractLsb'_append_eq_of_le (xhi := a ++ b) (xlo := c) (by decide)).trans BitVec.extractLsb'_append_eq_right

/-- Four nibbles as two nibbles and a byte. -/
theorem append4_eq (a b c d : BitVec 4) : (a ++ b ++ c ++ d : Word) = (a ++ b ++ (c ++ d : Byte) : Word) :=
  (BitVec.append_assoc (x₁ := a ++ b) (x₂ := c) (x₃ := d)).trans rfl

/-! ### Fields -/

@[simp] theorem fieldT_encodeNNN (t : BitVec 4) (nnn : BitVec 12) : fieldT (encodeNNN t nnn) = t :=
  BitVec.extractLsb'_append_eq_left

@[simp] theorem fieldNNN_encodeNNN (t : BitVec 4) (nnn : BitVec 12) : fieldNNN (encodeNNN t nnn) = nnn :=
  BitVec.extractLsb'_append_eq_right

@[simp] theorem fieldT_encodeXKK (t : BitVec 4) (x : RegIdx) (kk : Byte) : fieldT (encodeXKK t x kk) = t :=
  append3_high _ _ _

@[simp] theorem fieldX_encodeXKK (t : BitVec 4) (x : RegIdx) (kk : Byte) : fieldX (encodeXKK t x kk) = x :=
  congrArg BitVec.toFin (append3_mid t (regBits x) kk)

@[simp] theorem fieldKK_encodeXKK (t : BitVec 4) (x : RegIdx) (kk : Byte) : fieldKK (encodeXKK t x kk) = kk :=
  BitVec.extractLsb'_append_eq_right

/-- Format XYN is format XKK with `kk` made of two nibbles. -/
theorem encodeXYN_eq (t : BitVec 4) (x y : RegIdx) (low : BitVec 4) :
    encodeXYN t x y low = encodeXKK t x (regBits y ++ low) := append4_eq _ _ _ _

@[simp] theorem fieldT_encodeXYN (t : BitVec 4) (x y : RegIdx) (low : BitVec 4) : fieldT (encodeXYN t x y low) = t := by
  rw [encodeXYN_eq, fieldT_encodeXKK]

@[simp] theorem fieldX_encodeXYN (t : BitVec 4) (x y : RegIdx) (low : BitVec 4) : fieldX (encodeXYN t x y low) = x := by
  rw [encodeXYN_eq, fieldX_encodeXKK]

@[simp] theorem fieldY_encodeXYN (t : BitVec 4) (x y : RegIdx) (low : BitVec 4) : fieldY (encodeXYN t x y low) = y :=
  congrArg BitVec.toFin <|
    (BitVec.extractLsb'_append_eq_of_le (xhi := t ++ regBits x ++ regBits y) (xlo := low) (start := 4) (len := 4)
      (by decide)).trans BitVec.extractLsb'_append_eq_right

@[simp] theorem fieldLow_encodeXYN (t : BitVec 4) (x y : RegIdx) (low : BitVec 4) : fieldLow (encodeXYN t x y low) = low :=
  BitVec.extractLsb'_append_eq_right

@[simp] theorem fieldN_encodeXYN (t : BitVec 4) (x y n : RegIdx) : fieldN (encodeXYN t x y (regBits n)) = n :=
  congrArg BitVec.toFin (fieldLow_encodeXYN t x y (regBits n))

/-! ### Masks -/

theorem and_allOnes4 (a : BitVec 4) : a &&& 0xF#4 = a := by
  revert a
  decide

theorem encodeNNN_mask (t : BitVec 4) (nnn : BitVec 12) : encodeNNN t nnn &&& 0xF000#16 = encodeNNN t 0#12 := by
  refine (BitVec.and_append (x₁ := t) (x₂ := 0xF#4) (y₁ := nnn) (y₂ := 0#12)).trans ?_
  rw [and_allOnes4, BitVec.and_zero]
  rfl

theorem append3_and (a b m k : BitVec 4) (c n : Byte) :
    ((a ++ b ++ c : Word) &&& (m ++ k ++ n : Word)) = ((a &&& m) ++ (b &&& k) ++ (c &&& n) : Word) :=
  (BitVec.and_append (x₁ := a ++ b) (x₂ := m ++ k) (y₁ := c) (y₂ := n)).trans
    (congrArg (fun z : Byte => (z ++ (c &&& n) : Word)) (BitVec.and_append (x₁ := a) (x₂ := m) (y₁ := b) (y₂ := k)))

theorem encodeXKK_mask (t : BitVec 4) (x : RegIdx) (kk : Byte) : encodeXKK t x kk &&& 0xF000#16 = encodeXKK t 0 0#8 := by
  refine (append3_and t (regBits x) 0xF#4 0#4 kk 0#8).trans ?_
  rw [and_allOnes4, BitVec.and_zero, BitVec.and_zero]
  rfl

theorem encodeX_mask (t : BitVec 4) (x : RegIdx) (kk : Byte) : encodeXKK t x kk &&& 0xF0FF#16 = encodeXKK t 0 kk := by
  refine (append3_and t (regBits x) 0xF#4 0#4 kk 0xFF#8).trans ?_
  rw [and_allOnes4, BitVec.and_zero, show (0xFF#8) = BitVec.allOnes 8 from rfl, BitVec.and_allOnes]
  rfl

theorem encodeXYN_mask (t : BitVec 4) (x y : RegIdx) (low : BitVec 4) :
    encodeXYN t x y low &&& 0xF000#16 = encodeXYN t 0 0 0#4 := by
  rw [encodeXYN_eq, encodeXYN_eq, encodeXKK_mask]
  rfl

theorem encodeXY_mask (t : BitVec 4) (x y : RegIdx) (low : BitVec 4) :
    encodeXYN t x y low &&& 0xF00F#16 = encodeXYN t 0 0 low := by
  rw [encodeXYN_eq, encodeXYN_eq]
  refine (append3_and t (regBits x) 0xF#4 0#4 (regBits y ++ low) 0x0F#8).trans ?_
  have h : ((regBits y ++ low : Byte) &&& 0x0F#8) = (0#4 ++ low : Byte) := by
    refine (BitVec.and_append (x₁ := regBits y) (x₂ := 0#4) (y₁ := low) (y₂ := 0xF#4)).trans ?_
    rw [and_allOnes4, BitVec.and_zero]
  rw [and_allOnes4, BitVec.and_zero, h]
  rfl

/-! ### Bytes -/

theorem bigEndian_high_low (op : Word) : bigEndian (highByte op) (lowByte op) = op := by
  unfold bigEndian highByte lowByte
  rw [BitVec.extractLsb'_append_extractLsb'_eq_extractLsb' (by decide)]
  simp

@[simp] theorem highByte_bigEndian (hi lo : Byte) : highByte (bigEndian hi lo) = hi := BitVec.extractLsb'_append_eq_left

@[simp] theorem lowByte_bigEndian (hi lo : Byte) : lowByte (bigEndian hi lo) = lo := BitVec.extractLsb'_append_eq_right

end Sys2Proof
end

