-- ==== Sys2Proof/Laws/Framebuffer.lean ====
section
/-!
SUPPORT. What the framebuffer engine does (44_display R161, R162): each pixel after a draw is the pixel before XOR the
sprite's bit over it, and the collision says whether some lit sprite bit met a lit pixel.
-/
namespace Sys2Proof.Machine

theorem getPixel_setPixel (fb : Framebuffer) (row R : Fin 32) (col C : Fin 64) (on : Bool) :
    getPixel (setPixel fb row col on) R C = if R = row ∧ C = col then on else getPixel fb R C := by
  unfold getPixel setPixel
  by_cases hr : R = row
  · subst hr
    by_cases hc : C = col
    · subst hc
      simp
    · have : col.val ≠ C.val := fun e => hc (Fin.ext e.symm)
      simp [hc, Vector.getElem_set_ne, this]
  · have : row.val ≠ R.val := fun e => hr (Fin.ext e.symm)
    simp [hr, Vector.getElem_set_ne, this]

@[simp] theorem getPixel_clearedFb (R : Fin 32) (C : Fin 64) : getPixel clearedFb R C = false := by
  simp [getPixel, clearedFb]

/-- Framebuffers with the same pixels are the same data. -/
theorem framebuffer_ext {f g : Framebuffer} (h : ∀ R C, getPixel f R C = getPixel g R C) : f = g := by
  apply Vector.ext
  intro r hr
  apply Vector.ext
  intro c hc
  exact h ⟨r, hr⟩ ⟨c, hc⟩

/-! ### One row -/

theorem wrapCol_inj {ox a b : Nat} (ha : a < 8) (hb : b < 8) : wrapCol (ox + a) = wrapCol (ox + b) ↔ a = b := by
  simp only [wrapCol, Fin.mk.injEq]
  omega

theorem wrapRow_inj {oy a b : Nat} (ha : a < 32) (hb : b < 32) : wrapRow (oy + a) = wrapRow (oy + b) ↔ a = b := by
  simp only [wrapRow, Fin.mk.injEq]
  omega

/-- Bits `b` to `b + k - 1` of the byte have a lit bit in column `C`. -/
abbrev BitsLight (ox : Nat) (byte : Byte) (b k : Nat) (C : Fin 64) : Prop :=
  ∃ j : Fin 8, b ≤ j ∧ j < b + k ∧ wrapCol (ox + j) = C ∧ byte.getLsbD (7 - j) = true

theorem bitsLight_zero (ox : Nat) (byte : Byte) (b : Nat) (C : Fin 64) : ¬ BitsLight ox byte b 0 C := by
  rintro ⟨j, h1, h2, _⟩
  omega

theorem bitsLight_succ (ox : Nat) (byte : Byte) {b k : Nat} (hb : b + (k + 1) ≤ 8) (C : Fin 64) :
    BitsLight ox byte b (k + 1) C ↔ (wrapCol (ox + b) = C ∧ byte.getLsbD (7 - b) = true) ∨ BitsLight ox byte (b + 1) k C := by
  constructor
  · rintro ⟨j, h1, h2, h3, h4⟩
    rcases Nat.eq_or_lt_of_le h1 with h | h
    · subst h
      exact .inl ⟨h3, h4⟩
    · exact .inr ⟨j, h, by omega, h3, h4⟩
  · rintro (⟨h3, h4⟩ | ⟨j, h1, h2, h3, h4⟩)
    · exact ⟨⟨b, by omega⟩, Nat.le_refl _, by simp, h3, h4⟩
    · exact ⟨j, by omega, by omega, h3, h4⟩

/-- The later bits of a row do not touch the column of bit `b`. -/
theorem not_bitsLight_of_lt (ox : Nat) (byte : Byte) {b k : Nat} (hb : b < 8) :
    ¬ BitsLight ox byte (b + 1) k (wrapCol (ox + b)) := by
  rintro ⟨j, h1, _, h3, _⟩
  rw [wrapCol_inj j.isLt hb] at h3
  omega

theorem drawBits_pixel (ox : Nat) (row : Fin 32) (byte : Byte) {b k : Nat} (hb : b + k ≤ 8) (acc : Framebuffer × Bool)
    (R : Fin 32) (C : Fin 64) :
    getPixel (drawBits ox row byte b k acc).1 R C = (getPixel acc.1 R C ^^ decide (R = row ∧ BitsLight ox byte b k C)) := by
  induction k generalizing b acc with
  | zero => simp [drawBits, bitsLight_zero]
  | succ k ih =>
    rw [drawBits, ih (by omega)]
    simp only [xorPixel, getPixel_setPixel, bitsLight_succ ox byte hb]
    by_cases hR : R = row
    · subst hR
      by_cases hC : C = wrapCol (ox + b)
      · subst hC
        simp [not_bitsLight_of_lt ox byte (show b < 8 by omega)]
      · simp [hC, Ne.symm hC]
    · simp [hR]

theorem drawBits_collision (ox : Nat) (row : Fin 32) (byte : Byte) {b k : Nat} (hb : b + k ≤ 8) (acc : Framebuffer × Bool) :
    (drawBits ox row byte b k acc).2 =
      (acc.2 || decide (∃ C, getPixel acc.1 row C = true ∧ BitsLight ox byte b k C)) := by
  induction k generalizing b acc with
  | zero => simp [drawBits, bitsLight_zero]
  | succ k ih =>
    rw [drawBits, ih (by omega)]
    have hkey : (∃ C, getPixel (xorPixel row (wrapCol (ox + b)) (byte.getLsbD (7 - b)) acc).1 row C = true ∧
        BitsLight ox byte (b + 1) k C) ↔ ∃ C, getPixel acc.1 row C = true ∧ BitsLight ox byte (b + 1) k C := by
      apply exists_congr
      intro C
      apply and_congr_left
      intro hl
      have hC : C ≠ wrapCol (ox + b) := by
        rintro rfl
        exact not_bitsLight_of_lt ox byte (by omega) hl
      simp [xorPixel, getPixel_setPixel, hC]
    simp only [hkey, bitsLight_succ ox byte hb, and_or_left, exists_or]
    have h1 : (∃ C, getPixel acc.1 row C = true ∧ wrapCol (ox + b) = C ∧ byte.getLsbD (7 - b) = true) ↔
        getPixel acc.1 row (wrapCol (ox + b)) = true ∧ byte.getLsbD (7 - b) = true := by
      constructor
      · rintro ⟨C, h, rfl, h'⟩
        exact ⟨h, h'⟩
      · rintro ⟨h, h'⟩
        exact ⟨_, h, rfl, h'⟩
    simp only [h1, xorPixel, Bool.decide_or, Bool.decide_and, Bool.decide_eq_true, Bool.or_assoc]

/-! ### All rows -/

/-- Sprite rows numbered from `r0` on have a lit bit on the pixel. -/
abbrev RowsLight (ox oy r0 : Nat) (rows : List Byte) (R : Fin 32) (C : Fin 64) : Prop :=
  ∃ (r : Fin rows.length) (b : Fin 8), wrapRow (oy + (r0 + r)) = R ∧ wrapCol (ox + b) = C ∧ rows[r].getLsbD (7 - b) = true

theorem bitsLight_all (ox : Nat) (byte : Byte) (C : Fin 64) :
    BitsLight ox byte 0 8 C ↔ ∃ b : Fin 8, wrapCol (ox + b) = C ∧ byte.getLsbD (7 - b) = true := by
  constructor
  · rintro ⟨j, _, _, h3, h4⟩
    exact ⟨j, h3, h4⟩
  · rintro ⟨j, h3, h4⟩
    exact ⟨j, Nat.zero_le _, by omega, h3, h4⟩

theorem rowsLight_cons (ox oy r0 : Nat) (byte : Byte) (rest : List Byte) (R : Fin 32) (C : Fin 64) :
    RowsLight ox oy r0 (byte :: rest) R C ↔
      (R = wrapRow (oy + r0) ∧ BitsLight ox byte 0 8 C) ∨ RowsLight ox oy (r0 + 1) rest R C := by
  rw [bitsLight_all]
  constructor
  · rintro ⟨⟨r, hr⟩, b, h1, h2, h3⟩
    cases r with
    | zero => exact .inl ⟨by simpa using h1.symm, b, h2, by simpa using h3⟩
    | succ r =>
      refine .inr ⟨⟨r, by simpa using hr⟩, b, ?_, h2, by simpa using h3⟩
      rw [← h1]
      congr 1
      simp only
      omega
  · rintro (⟨h1, b, h2, h3⟩ | ⟨⟨r, hr⟩, b, h1, h2, h3⟩)
    · exact ⟨⟨0, by simp⟩, b, by simpa using h1.symm, h2, by simpa using h3⟩
    · refine ⟨⟨r + 1, by simpa using hr⟩, b, ?_, h2, by simpa using h3⟩
      rw [← h1]
      congr 1
      simp only
      omega

/-- The rows after row `r0` do not touch its screen row. -/
theorem not_rowsLight_of_first (ox oy r0 : Nat) {rest : List Byte} (hlen : rest.length < 32) (C : Fin 64) :
    ¬ RowsLight ox oy (r0 + 1) rest (wrapRow (oy + r0)) C := by
  rintro ⟨⟨r, hr⟩, b, h1, _⟩
  have := (wrapRow_inj (oy := oy + r0) (a := 1 + r) (b := 0) (by omega) (by omega)).1
    (by rw [Nat.add_zero, ← h1]; congr 1; simp only; omega)
  omega

theorem drawRows_pixel (ox oy r0 : Nat) (rows : List Byte) (hlen : rows.length ≤ 32) (acc : Framebuffer × Bool)
    (R : Fin 32) (C : Fin 64) :
    getPixel (drawRows ox oy r0 rows acc).1 R C = (getPixel acc.1 R C ^^ decide (RowsLight ox oy r0 rows R C)) := by
  induction rows generalizing r0 acc with
  | nil =>
    have : ¬ RowsLight ox oy r0 [] R C := by rintro ⟨⟨r, hr⟩, _⟩; simp at hr
    simp [drawRows, this]
  | cons byte rest ih =>
    simp only [List.length_cons] at hlen
    have hcons : decide (RowsLight ox oy r0 (byte :: rest) R C) =
        (decide (R = wrapRow (oy + r0) ∧ BitsLight ox byte 0 8 C) || decide (RowsLight ox oy (r0 + 1) rest R C)) := by
      rw [← Bool.decide_or]
      exact decide_eq_decide.2 (rowsLight_cons ox oy r0 byte rest R C)
    rw [drawRows, ih _ (by omega), drawBits_pixel _ _ _ (by omega), hcons]
    by_cases hR : R = wrapRow (oy + r0)
    · subst hR
      simp [not_rowsLight_of_first ox oy r0 (show rest.length < 32 by omega) C]
    · simp [hR]

theorem drawRows_collision (ox oy r0 : Nat) (rows : List Byte) (hlen : rows.length ≤ 32) (acc : Framebuffer × Bool) :
    (drawRows ox oy r0 rows acc).2 =
      (acc.2 || decide (∃ R C, getPixel acc.1 R C = true ∧ RowsLight ox oy r0 rows R C)) := by
  induction rows generalizing r0 acc with
  | nil =>
    have : ∀ R C, ¬ RowsLight ox oy r0 [] R C := by rintro R C ⟨⟨r, hr⟩, _⟩; simp at hr
    simp [drawRows, this]
  | cons byte rest ih =>
    simp only [List.length_cons] at hlen
    rw [drawRows, ih _ (by omega), drawBits_collision _ _ _ (by omega)]
    have hlater : (∃ R C, getPixel (drawBits ox (wrapRow (oy + r0)) byte 0 8 acc).1 R C = true ∧
        RowsLight ox oy (r0 + 1) rest R C) ↔ ∃ R C, getPixel acc.1 R C = true ∧ RowsLight ox oy (r0 + 1) rest R C := by
      refine exists_congr fun R => exists_congr fun C => and_congr_left fun hl => ?_
      have hR : R ≠ wrapRow (oy + r0) := by
        rintro rfl
        exact not_rowsLight_of_first ox oy r0 (by omega) C hl
      rw [drawBits_pixel _ _ _ (by omega)]
      simp [hR]
    have hall : (∃ R C, getPixel acc.1 R C = true ∧ RowsLight ox oy r0 (byte :: rest) R C) ↔
        (∃ C, getPixel acc.1 (wrapRow (oy + r0)) C = true ∧ BitsLight ox byte 0 8 C) ∨
          ∃ R C, getPixel acc.1 R C = true ∧ RowsLight ox oy (r0 + 1) rest R C := by
      simp only [rowsLight_cons, and_or_left, exists_or]
      refine or_congr_left ⟨?_, ?_⟩
      · rintro ⟨R, C, h1, rfl, h2⟩
        exact ⟨C, h1, h2⟩
      · rintro ⟨C, h1, h2⟩
        exact ⟨_, C, h1, rfl, h2⟩
    rw [decide_eq_decide.2 hlater, Bool.or_assoc, ← Bool.decide_or, decide_eq_decide.2 hall]

/-! ### The draw -/

theorem rowsLight_zero (ox oy : Nat) (rows : List Byte) (R : Fin 32) (C : Fin 64) :
    RowsLight ox oy 0 rows R C ↔ SpriteLights ox oy rows R C := by
  simp only [RowsLight, SpriteLights, Nat.zero_add]

/-- Each pixel after a draw is the pixel before XOR the sprite's bit over it. -/
theorem draw_pixel (fb : Framebuffer) (ox oy : Nat) (rows : List Byte) (hlen : rows.length ≤ 32) (R : Fin 32) (C : Fin 64) :
    getPixel (draw fb ox oy rows).1 R C = (getPixel fb R C ^^ decide (SpriteLights ox oy rows R C)) := by
  rw [draw, drawRows_pixel _ _ _ _ hlen]
  exact congrArg _ (decide_eq_decide.2 (rowsLight_zero ox oy rows R C))

/-- A draw collides exactly when some lit sprite bit meets a lit pixel. -/
theorem draw_collision (fb : Framebuffer) (ox oy : Nat) (rows : List Byte) (hlen : rows.length ≤ 32) :
    (draw fb ox oy rows).2 = decide (∃ R C, getPixel fb R C = true ∧ SpriteLights ox oy rows R C) := by
  rw [draw, drawRows_collision _ _ _ _ hlen, Bool.false_or]
  exact decide_eq_decide.2 (exists_congr fun R => exists_congr fun C => and_congr_right fun _ => rowsLight_zero ox oy rows R C)

end Sys2Proof.Machine
end

