-- ==== Sys2Proof/Laws/Memory.lean ====
section
/-!
SUPPORT. What the memory operations do: a read after a write, the canonical form, blocks of bytes.
-/
namespace Sys2Proof.Machine

/-! ### Cells -/

theorem cellRead_cellOf_append (bg : Byte) (a x : Nat) (b : Byte) (rest : List Host.Cell) :
    cellRead bg x (cellOf bg a b ++ rest) = if b = bg then cellRead bg x rest else if a = x then b else cellRead bg x rest := by
  unfold cellOf
  split <;> simp [cellRead]

/-- In cells whose addresses are all at least `lo`, an address below `lo` is not listed. -/
theorem cellRead_of_lt {f : Nat → Byte} {lo : Nat} {cells : List Host.Cell} (h : cellsCanonical f lo cells = true)
    (bg : Byte) {x : Nat} (hx : x < lo) : cellRead bg x cells = bg := by
  induction cells generalizing lo with
  | nil => rfl
  | cons c rest ih =>
    obtain ⟨c, b⟩ := c
    simp only [cellsCanonical, Bool.and_eq_true, decide_eq_true_eq] at h
    have hne : c ≠ x := by omega
    simp only [cellRead, hne, if_false]
    exact ih h.2 (by omega)

/-- Canonical cells from `lo` on are canonical from any lower bound. -/
theorem cellsCanonical_mono {f : Nat → Byte} {lo lo' : Nat} {cells : List Host.Cell} (hlo : lo' ≤ lo)
    (h : cellsCanonical f lo cells = true) : cellsCanonical f lo' cells = true := by
  cases cells with
  | nil => rfl
  | cons c rest =>
    obtain ⟨c, b⟩ := c
    simp only [cellsCanonical, Bool.and_eq_true, decide_eq_true_eq] at h ⊢
    exact ⟨⟨⟨by omega, h.1.1.2⟩, h.1.2⟩, h.2⟩

theorem cellsCanonical_cellOf_append {f : Nat → Byte} {lo a : Nat} {b : Byte} {rest : List Host.Cell} (hlo : lo ≤ a)
    (ha : a < 4096) (h : cellsCanonical f (a + 1) rest = true) : cellsCanonical f lo (cellOf (f a) a b ++ rest) = true := by
  unfold cellOf
  split
  · exact cellsCanonical_mono (by omega) h
  · simp_all [cellsCanonical]

/-- A write keeps the canonical form. -/
theorem cellWrite_canonical {f : Nat → Byte} {lo a : Nat} {cells : List Host.Cell} (b : Byte) (hlo : lo ≤ a) (ha : a < 4096)
    (h : cellsCanonical f lo cells = true) : cellsCanonical f lo (cellWrite (f a) a b cells) = true := by
  induction cells generalizing lo with
  | nil => simpa [cellWrite] using cellsCanonical_cellOf_append (b := b) (rest := []) hlo ha rfl
  | cons c rest ih =>
    obtain ⟨c, d⟩ := c
    have h' := h
    simp only [cellsCanonical, Bool.and_eq_true, decide_eq_true_eq] at h'
    simp only [cellWrite]
    split
    · refine cellsCanonical_cellOf_append hlo ha ?_
      simp only [cellsCanonical, Bool.and_eq_true, decide_eq_true_eq]
      exact ⟨⟨⟨by omega, h'.1.1.2⟩, h'.1.2⟩, h'.2⟩
    · split
      · rename_i _ hc
        exact cellsCanonical_cellOf_append hlo ha (hc ▸ h'.2)
      · simp only [cellsCanonical, Bool.and_eq_true, decide_eq_true_eq]
        exact ⟨⟨⟨h'.1.1.1, h'.1.1.2⟩, h'.1.2⟩, ih (by omega) h'.2⟩

/-- A read of the address written gives the byte written. -/
theorem cellRead_cellWrite_self {f : Nat → Byte} {lo a : Nat} {cells : List Host.Cell} (b : Byte)
    (h : cellsCanonical f lo cells = true) : cellRead (f a) a (cellWrite (f a) a b cells) = b := by
  induction cells generalizing lo with
  | nil =>
    have := cellRead_cellOf_append (f a) a a b []
    simp only [List.append_nil] at this
    simp only [cellWrite, this, cellRead, if_true]
    split <;> simp_all
  | cons c rest ih =>
    obtain ⟨c, d⟩ := c
    have h' := h
    simp only [cellsCanonical, Bool.and_eq_true, decide_eq_true_eq] at h'
    simp only [cellWrite]
    split
    · rename_i hlt
      rw [cellRead_cellOf_append]
      split
      · rename_i hb
        have hne : c ≠ a := by omega
        simp only [cellRead, hne, if_false]
        rw [cellRead_of_lt h'.2 _ (by omega), hb]
      · simp
    · split
      · rename_i _ hc
        subst hc
        rw [cellRead_cellOf_append]
        split
        · rename_i hb
          rw [cellRead_of_lt h'.2 _ (by omega), hb]
        · simp
      · rename_i _ hc
        simp only [cellRead, hc, if_false]
        exact ih h'.2

/-- A read of any other address gives what it gave before. -/
theorem cellRead_cellWrite_of_ne (bg bg' : Byte) {a x : Nat} (cells : List Host.Cell) (b : Byte) (hx : x ≠ a) :
    cellRead bg x (cellWrite bg' a b cells) = cellRead bg x cells := by
  have hof : ∀ rest, cellRead bg x (cellOf bg' a b ++ rest) = cellRead bg x rest := by
    intro rest
    unfold cellOf
    split
    · rfl
    · simp [cellRead, Ne.symm hx]
  induction cells with
  | nil => simpa [cellWrite] using hof []
  | cons c rest ih =>
    obtain ⟨c, d⟩ := c
    simp only [cellWrite]
    split
    · exact hof _
    · split
      · rename_i _ hc
        rw [hof, cellRead, if_neg (by omega)]
      · simp only [cellRead, ih]

/-! ### One byte of memory -/

@[simp] theorem Memory.font_write (m : Memory) (a : Nat) (b : Byte) : (m.write a b).font = m.font := rfl

@[simp] theorem Memory.background_write (m : Memory) (a : Nat) (b : Byte) : (m.write a b).background = m.background := rfl

/-- A read after a write to the same address gives the byte written. -/
theorem Memory.read_write_self {m : Memory} (h : m.wf = true) (a : Nat) (b : Byte) : (m.write a b).read a = b :=
  cellRead_cellWrite_self b h

/-- A write leaves every other address alone. -/
theorem Memory.read_write_of_ne (m : Memory) {a x : Nat} (b : Byte) (hx : x ≠ a) : (m.write a b).read x = m.read x :=
  cellRead_cellWrite_of_ne _ _ _ _ hx

/-- A write within memory keeps the canonical form. -/
theorem Memory.wf_write {m : Memory} (h : m.wf = true) {a : Nat} (ha : a < 4096) (b : Byte) : (m.write a b).wf = true :=
  cellWrite_canonical b (Nat.zero_le a) ha h

/-- Memory after reset lists nothing, so its canonical form holds. -/
theorem State.wf_resetWith (font : Font) : (State.resetWith font).mem.wf = true := rfl

/-! ### Blocks -/

@[simp] theorem Memory.font_writeBytes (m : Memory) (a : Nat) (bs : List Byte) : (m.writeBytes a bs).font = m.font := by
  induction bs generalizing a with
  | nil => rfl
  | cons b bs ih => simp [Memory.writeBytes, ih]

/-- A block within memory keeps the canonical form. -/
theorem Memory.wf_writeBytes {m : Memory} (h : m.wf = true) {a : Nat} {bs : List Byte} (ha : a + bs.length ≤ 4096) :
    (m.writeBytes a bs).wf = true := by
  induction bs generalizing a with
  | nil => exact h
  | cons b bs ih =>
    simp only [List.length_cons] at ha
    exact Memory.wf_write (ih (by omega)) (by omega) b

/-- A block leaves every address outside it alone. -/
theorem Memory.read_writeBytes_of_outside (m : Memory) {a x : Nat} {bs : List Byte} (hx : x < a ∨ a + bs.length ≤ x) :
    (m.writeBytes a bs).read x = m.read x := by
  induction bs generalizing a with
  | nil => rfl
  | cons b bs ih =>
    simp only [List.length_cons] at hx
    rw [Memory.writeBytes, Memory.read_write_of_ne _ _ (by omega), ih (by omega)]

/-- A block puts its `k`-th byte at address `a + k`. -/
theorem Memory.read_writeBytes_inside {m : Memory} (h : m.wf = true) {a k : Nat} {bs : List Byte} (hk : k < bs.length)
    (ha : a + bs.length ≤ 4096) : (m.writeBytes a bs).read (a + k) = bs[k] := by
  induction bs generalizing a k with
  | nil => simp at hk
  | cons b bs ih =>
    simp only [List.length_cons] at ha hk
    cases k with
    | zero => exact Memory.read_write_self (Memory.wf_writeBytes h (by omega)) a b
    | succ k =>
      rw [Memory.writeBytes, Memory.read_write_of_ne _ _ (by omega)]
      have := ih (a := a + 1) (k := k) (by omega) (by omega)
      simpa [Nat.add_assoc, Nat.add_comm 1 k] using this

@[simp] theorem Memory.length_readBytes (m : Memory) (a n : Nat) : (m.readBytes a n).length = n := by
  induction n generalizing a with
  | zero => rfl
  | succ n ih => simp [Memory.readBytes, ih]

/-- The `k`-th byte of a block is the byte at address `a + k`. -/
theorem Memory.getElem_readBytes (m : Memory) (a n k : Nat) (hk : k < (m.readBytes a n).length) :
    (m.readBytes a n)[k] = m.read (a + k) := by
  induction n generalizing a k with
  | zero => simp [Memory.readBytes] at hk
  | succ n ih =>
    cases k with
    | zero => rfl
    | succ k =>
      simp only [Memory.readBytes, List.getElem_cons_succ]
      rw [ih]
      congr 1
      omega

/-! ### Equal contents are equal data -/

/-- Two canonical memories with the same font that read the same at every address are the same data. -/
theorem cells_ext {f : Nat → Byte} {lo : Nat} {c d : List Host.Cell} (hc : cellsCanonical f lo c = true)
    (hd : cellsCanonical f lo d = true) (h : ∀ a, cellRead (f a) a c = cellRead (f a) a d) : c = d := by
  induction c generalizing lo d with
  | nil =>
    cases d with
    | nil => rfl
    | cons e rest =>
      obtain ⟨e, b⟩ := e
      have := h e
      simp only [cellRead, if_true] at this
      simp only [cellsCanonical, Bool.and_eq_true, bne_iff_ne] at hd
      exact absurd this.symm hd.1.2
  | cons e rest ih =>
    obtain ⟨e, b⟩ := e
    have hc' := hc
    simp only [cellsCanonical, Bool.and_eq_true, bne_iff_ne, decide_eq_true_eq] at hc'
    cases d with
    | nil =>
      have := h e
      simp only [cellRead, if_true] at this
      exact absurd this hc'.1.2
    | cons g rest' =>
      obtain ⟨g, b'⟩ := g
      have hd' := hd
      simp only [cellsCanonical, Bool.and_eq_true, bne_iff_ne, decide_eq_true_eq] at hd'
      have heg : e = g := by
        rcases Nat.lt_trichotomy e g with hlt | heq | hlt
        · have := h e
          simp only [cellRead, if_true, if_neg (show g ≠ e by omega)] at this
          rw [cellRead_of_lt hd'.2 _ (by omega)] at this
          exact absurd this hc'.1.2
        · exact heq
        · have := h g
          simp only [cellRead, if_true, if_neg (show e ≠ g by omega)] at this
          rw [cellRead_of_lt hc'.2 _ (by omega)] at this
          exact absurd this.symm hd'.1.2
      subst heg
      have hb : b = b' := by simpa [cellRead] using h e
      subst hb
      congr 1
      refine ih hc'.2 hd'.2 fun a => ?_
      by_cases ha : e = a
      · subst ha
        rw [cellRead_of_lt hc'.2 _ (by omega), cellRead_of_lt hd'.2 _ (by omega)]
      · simpa [cellRead, ha] using h a

theorem Memory.ext_of_read {m n : Memory} (hm : m.wf = true) (hn : n.wf = true) (hf : m.font = n.font)
    (h : ∀ a, m.read a = n.read a) : m = n := by
  obtain ⟨fm, cm⟩ := m
  obtain ⟨fn, cn⟩ := n
  simp only at hf
  subst hf
  have := cells_ext hm hn h
  simp only at this
  rw [this]

end Sys2Proof.Machine
end

