-- ==== Sys2Proof/Laws/State.lean ====
section
/-!
SUPPORT. Every field after every named update of the state, each true by rfl: no later proof unfolds a record update.
-/
namespace Sys2Proof.Machine

/-! `State.writeV` -/

@[simp] theorem State.v_writeV (s : State) (r : RegIdx) (b : Byte) : (s.writeV r b).v = s.v.set r b := rfl
@[simp] theorem State.i_writeV (s : State) (r : RegIdx) (b : Byte) : (s.writeV r b).i = s.i := rfl
@[simp] theorem State.pc_writeV (s : State) (r : RegIdx) (b : Byte) : (s.writeV r b).pc = s.pc := rfl
@[simp] theorem State.sp_writeV (s : State) (r : RegIdx) (b : Byte) : (s.writeV r b).sp = s.sp := rfl
@[simp] theorem State.stack_writeV (s : State) (r : RegIdx) (b : Byte) : (s.writeV r b).stack = s.stack := rfl
@[simp] theorem State.dt_writeV (s : State) (r : RegIdx) (b : Byte) : (s.writeV r b).dt = s.dt := rfl
@[simp] theorem State.st_writeV (s : State) (r : RegIdx) (b : Byte) : (s.writeV r b).st = s.st := rfl
@[simp] theorem State.mem_writeV (s : State) (r : RegIdx) (b : Byte) : (s.writeV r b).mem = s.mem := rfl
@[simp] theorem State.fb_writeV (s : State) (r : RegIdx) (b : Byte) : (s.writeV r b).fb = s.fb := rfl
@[simp] theorem State.key_writeV (s : State) (r : RegIdx) (b : Byte) : (s.writeV r b).key = s.key := rfl
@[simp] theorem State.run_writeV (s : State) (r : RegIdx) (b : Byte) : (s.writeV r b).run = s.run := rfl
@[simp] theorem State.fault_writeV (s : State) (r : RegIdx) (b : Byte) : (s.writeV r b).fault = s.fault := rfl
@[simp] theorem State.draws_writeV (s : State) (r : RegIdx) (b : Byte) : (s.writeV r b).draws = s.draws := rfl

/-! `State.setRegs` -/

@[simp] theorem State.v_setRegs (s : State) (w : Vector Byte 16) : (s.setRegs w).v = w := rfl
@[simp] theorem State.i_setRegs (s : State) (w : Vector Byte 16) : (s.setRegs w).i = s.i := rfl
@[simp] theorem State.pc_setRegs (s : State) (w : Vector Byte 16) : (s.setRegs w).pc = s.pc := rfl
@[simp] theorem State.sp_setRegs (s : State) (w : Vector Byte 16) : (s.setRegs w).sp = s.sp := rfl
@[simp] theorem State.stack_setRegs (s : State) (w : Vector Byte 16) : (s.setRegs w).stack = s.stack := rfl
@[simp] theorem State.dt_setRegs (s : State) (w : Vector Byte 16) : (s.setRegs w).dt = s.dt := rfl
@[simp] theorem State.st_setRegs (s : State) (w : Vector Byte 16) : (s.setRegs w).st = s.st := rfl
@[simp] theorem State.mem_setRegs (s : State) (w : Vector Byte 16) : (s.setRegs w).mem = s.mem := rfl
@[simp] theorem State.fb_setRegs (s : State) (w : Vector Byte 16) : (s.setRegs w).fb = s.fb := rfl
@[simp] theorem State.key_setRegs (s : State) (w : Vector Byte 16) : (s.setRegs w).key = s.key := rfl
@[simp] theorem State.run_setRegs (s : State) (w : Vector Byte 16) : (s.setRegs w).run = s.run := rfl
@[simp] theorem State.fault_setRegs (s : State) (w : Vector Byte 16) : (s.setRegs w).fault = s.fault := rfl
@[simp] theorem State.draws_setRegs (s : State) (w : Vector Byte 16) : (s.setRegs w).draws = s.draws := rfl

/-! `State.setI` -/

@[simp] theorem State.v_setI (s : State) (a : Word) : (s.setI a).v = s.v := rfl
@[simp] theorem State.i_setI (s : State) (a : Word) : (s.setI a).i = a := rfl
@[simp] theorem State.pc_setI (s : State) (a : Word) : (s.setI a).pc = s.pc := rfl
@[simp] theorem State.sp_setI (s : State) (a : Word) : (s.setI a).sp = s.sp := rfl
@[simp] theorem State.stack_setI (s : State) (a : Word) : (s.setI a).stack = s.stack := rfl
@[simp] theorem State.dt_setI (s : State) (a : Word) : (s.setI a).dt = s.dt := rfl
@[simp] theorem State.st_setI (s : State) (a : Word) : (s.setI a).st = s.st := rfl
@[simp] theorem State.mem_setI (s : State) (a : Word) : (s.setI a).mem = s.mem := rfl
@[simp] theorem State.fb_setI (s : State) (a : Word) : (s.setI a).fb = s.fb := rfl
@[simp] theorem State.key_setI (s : State) (a : Word) : (s.setI a).key = s.key := rfl
@[simp] theorem State.run_setI (s : State) (a : Word) : (s.setI a).run = s.run := rfl
@[simp] theorem State.fault_setI (s : State) (a : Word) : (s.setI a).fault = s.fault := rfl
@[simp] theorem State.draws_setI (s : State) (a : Word) : (s.setI a).draws = s.draws := rfl

/-! `State.setPc` -/

@[simp] theorem State.v_setPc (s : State) (a : Word) : (s.setPc a).v = s.v := rfl
@[simp] theorem State.i_setPc (s : State) (a : Word) : (s.setPc a).i = s.i := rfl
@[simp] theorem State.pc_setPc (s : State) (a : Word) : (s.setPc a).pc = a := rfl
@[simp] theorem State.sp_setPc (s : State) (a : Word) : (s.setPc a).sp = s.sp := rfl
@[simp] theorem State.stack_setPc (s : State) (a : Word) : (s.setPc a).stack = s.stack := rfl
@[simp] theorem State.dt_setPc (s : State) (a : Word) : (s.setPc a).dt = s.dt := rfl
@[simp] theorem State.st_setPc (s : State) (a : Word) : (s.setPc a).st = s.st := rfl
@[simp] theorem State.mem_setPc (s : State) (a : Word) : (s.setPc a).mem = s.mem := rfl
@[simp] theorem State.fb_setPc (s : State) (a : Word) : (s.setPc a).fb = s.fb := rfl
@[simp] theorem State.key_setPc (s : State) (a : Word) : (s.setPc a).key = s.key := rfl
@[simp] theorem State.run_setPc (s : State) (a : Word) : (s.setPc a).run = s.run := rfl
@[simp] theorem State.fault_setPc (s : State) (a : Word) : (s.setPc a).fault = s.fault := rfl
@[simp] theorem State.draws_setPc (s : State) (a : Word) : (s.setPc a).draws = s.draws := rfl

/-! `State.setCallStack` -/

@[simp] theorem State.v_setCallStack (s : State) (n : Fin 17) (k : Vector Word 16) : (s.setCallStack n k).v = s.v := rfl
@[simp] theorem State.i_setCallStack (s : State) (n : Fin 17) (k : Vector Word 16) : (s.setCallStack n k).i = s.i := rfl
@[simp] theorem State.pc_setCallStack (s : State) (n : Fin 17) (k : Vector Word 16) : (s.setCallStack n k).pc = s.pc := rfl
@[simp] theorem State.sp_setCallStack (s : State) (n : Fin 17) (k : Vector Word 16) : (s.setCallStack n k).sp = n := rfl
@[simp] theorem State.stack_setCallStack (s : State) (n : Fin 17) (k : Vector Word 16) : (s.setCallStack n k).stack = k := rfl
@[simp] theorem State.dt_setCallStack (s : State) (n : Fin 17) (k : Vector Word 16) : (s.setCallStack n k).dt = s.dt := rfl
@[simp] theorem State.st_setCallStack (s : State) (n : Fin 17) (k : Vector Word 16) : (s.setCallStack n k).st = s.st := rfl
@[simp] theorem State.mem_setCallStack (s : State) (n : Fin 17) (k : Vector Word 16) : (s.setCallStack n k).mem = s.mem := rfl
@[simp] theorem State.fb_setCallStack (s : State) (n : Fin 17) (k : Vector Word 16) : (s.setCallStack n k).fb = s.fb := rfl
@[simp] theorem State.key_setCallStack (s : State) (n : Fin 17) (k : Vector Word 16) : (s.setCallStack n k).key = s.key := rfl
@[simp] theorem State.run_setCallStack (s : State) (n : Fin 17) (k : Vector Word 16) : (s.setCallStack n k).run = s.run := rfl
@[simp] theorem State.fault_setCallStack (s : State) (n : Fin 17) (k : Vector Word 16) : (s.setCallStack n k).fault = s.fault := rfl
@[simp] theorem State.draws_setCallStack (s : State) (n : Fin 17) (k : Vector Word 16) : (s.setCallStack n k).draws = s.draws := rfl

/-! `State.setDT` -/

@[simp] theorem State.v_setDT (s : State) (b : Byte) : (s.setDT b).v = s.v := rfl
@[simp] theorem State.i_setDT (s : State) (b : Byte) : (s.setDT b).i = s.i := rfl
@[simp] theorem State.pc_setDT (s : State) (b : Byte) : (s.setDT b).pc = s.pc := rfl
@[simp] theorem State.sp_setDT (s : State) (b : Byte) : (s.setDT b).sp = s.sp := rfl
@[simp] theorem State.stack_setDT (s : State) (b : Byte) : (s.setDT b).stack = s.stack := rfl
@[simp] theorem State.dt_setDT (s : State) (b : Byte) : (s.setDT b).dt = b := rfl
@[simp] theorem State.st_setDT (s : State) (b : Byte) : (s.setDT b).st = s.st := rfl
@[simp] theorem State.mem_setDT (s : State) (b : Byte) : (s.setDT b).mem = s.mem := rfl
@[simp] theorem State.fb_setDT (s : State) (b : Byte) : (s.setDT b).fb = s.fb := rfl
@[simp] theorem State.key_setDT (s : State) (b : Byte) : (s.setDT b).key = s.key := rfl
@[simp] theorem State.run_setDT (s : State) (b : Byte) : (s.setDT b).run = s.run := rfl
@[simp] theorem State.fault_setDT (s : State) (b : Byte) : (s.setDT b).fault = s.fault := rfl
@[simp] theorem State.draws_setDT (s : State) (b : Byte) : (s.setDT b).draws = s.draws := rfl

/-! `State.setST` -/

@[simp] theorem State.v_setST (s : State) (b : Byte) : (s.setST b).v = s.v := rfl
@[simp] theorem State.i_setST (s : State) (b : Byte) : (s.setST b).i = s.i := rfl
@[simp] theorem State.pc_setST (s : State) (b : Byte) : (s.setST b).pc = s.pc := rfl
@[simp] theorem State.sp_setST (s : State) (b : Byte) : (s.setST b).sp = s.sp := rfl
@[simp] theorem State.stack_setST (s : State) (b : Byte) : (s.setST b).stack = s.stack := rfl
@[simp] theorem State.dt_setST (s : State) (b : Byte) : (s.setST b).dt = s.dt := rfl
@[simp] theorem State.st_setST (s : State) (b : Byte) : (s.setST b).st = b := rfl
@[simp] theorem State.mem_setST (s : State) (b : Byte) : (s.setST b).mem = s.mem := rfl
@[simp] theorem State.fb_setST (s : State) (b : Byte) : (s.setST b).fb = s.fb := rfl
@[simp] theorem State.key_setST (s : State) (b : Byte) : (s.setST b).key = s.key := rfl
@[simp] theorem State.run_setST (s : State) (b : Byte) : (s.setST b).run = s.run := rfl
@[simp] theorem State.fault_setST (s : State) (b : Byte) : (s.setST b).fault = s.fault := rfl
@[simp] theorem State.draws_setST (s : State) (b : Byte) : (s.setST b).draws = s.draws := rfl

/-! `State.setMem` -/

@[simp] theorem State.v_setMem (s : State) (m : Memory) : (s.setMem m).v = s.v := rfl
@[simp] theorem State.i_setMem (s : State) (m : Memory) : (s.setMem m).i = s.i := rfl
@[simp] theorem State.pc_setMem (s : State) (m : Memory) : (s.setMem m).pc = s.pc := rfl
@[simp] theorem State.sp_setMem (s : State) (m : Memory) : (s.setMem m).sp = s.sp := rfl
@[simp] theorem State.stack_setMem (s : State) (m : Memory) : (s.setMem m).stack = s.stack := rfl
@[simp] theorem State.dt_setMem (s : State) (m : Memory) : (s.setMem m).dt = s.dt := rfl
@[simp] theorem State.st_setMem (s : State) (m : Memory) : (s.setMem m).st = s.st := rfl
@[simp] theorem State.mem_setMem (s : State) (m : Memory) : (s.setMem m).mem = m := rfl
@[simp] theorem State.fb_setMem (s : State) (m : Memory) : (s.setMem m).fb = s.fb := rfl
@[simp] theorem State.key_setMem (s : State) (m : Memory) : (s.setMem m).key = s.key := rfl
@[simp] theorem State.run_setMem (s : State) (m : Memory) : (s.setMem m).run = s.run := rfl
@[simp] theorem State.fault_setMem (s : State) (m : Memory) : (s.setMem m).fault = s.fault := rfl
@[simp] theorem State.draws_setMem (s : State) (m : Memory) : (s.setMem m).draws = s.draws := rfl

/-! `State.setFb` -/

@[simp] theorem State.v_setFb (s : State) (g : Framebuffer) : (s.setFb g).v = s.v := rfl
@[simp] theorem State.i_setFb (s : State) (g : Framebuffer) : (s.setFb g).i = s.i := rfl
@[simp] theorem State.pc_setFb (s : State) (g : Framebuffer) : (s.setFb g).pc = s.pc := rfl
@[simp] theorem State.sp_setFb (s : State) (g : Framebuffer) : (s.setFb g).sp = s.sp := rfl
@[simp] theorem State.stack_setFb (s : State) (g : Framebuffer) : (s.setFb g).stack = s.stack := rfl
@[simp] theorem State.dt_setFb (s : State) (g : Framebuffer) : (s.setFb g).dt = s.dt := rfl
@[simp] theorem State.st_setFb (s : State) (g : Framebuffer) : (s.setFb g).st = s.st := rfl
@[simp] theorem State.mem_setFb (s : State) (g : Framebuffer) : (s.setFb g).mem = s.mem := rfl
@[simp] theorem State.fb_setFb (s : State) (g : Framebuffer) : (s.setFb g).fb = g := rfl
@[simp] theorem State.key_setFb (s : State) (g : Framebuffer) : (s.setFb g).key = s.key := rfl
@[simp] theorem State.run_setFb (s : State) (g : Framebuffer) : (s.setFb g).run = s.run := rfl
@[simp] theorem State.fault_setFb (s : State) (g : Framebuffer) : (s.setFb g).fault = s.fault := rfl
@[simp] theorem State.draws_setFb (s : State) (g : Framebuffer) : (s.setFb g).draws = s.draws := rfl

/-! `State.setKeyFlag` -/

@[simp] theorem State.v_setKeyFlag (s : State) (k : KeyCode) (d : Bool) : (s.setKeyFlag k d).v = s.v := rfl
@[simp] theorem State.i_setKeyFlag (s : State) (k : KeyCode) (d : Bool) : (s.setKeyFlag k d).i = s.i := rfl
@[simp] theorem State.pc_setKeyFlag (s : State) (k : KeyCode) (d : Bool) : (s.setKeyFlag k d).pc = s.pc := rfl
@[simp] theorem State.sp_setKeyFlag (s : State) (k : KeyCode) (d : Bool) : (s.setKeyFlag k d).sp = s.sp := rfl
@[simp] theorem State.stack_setKeyFlag (s : State) (k : KeyCode) (d : Bool) : (s.setKeyFlag k d).stack = s.stack := rfl
@[simp] theorem State.dt_setKeyFlag (s : State) (k : KeyCode) (d : Bool) : (s.setKeyFlag k d).dt = s.dt := rfl
@[simp] theorem State.st_setKeyFlag (s : State) (k : KeyCode) (d : Bool) : (s.setKeyFlag k d).st = s.st := rfl
@[simp] theorem State.mem_setKeyFlag (s : State) (k : KeyCode) (d : Bool) : (s.setKeyFlag k d).mem = s.mem := rfl
@[simp] theorem State.fb_setKeyFlag (s : State) (k : KeyCode) (d : Bool) : (s.setKeyFlag k d).fb = s.fb := rfl
@[simp] theorem State.key_setKeyFlag (s : State) (k : KeyCode) (d : Bool) : (s.setKeyFlag k d).key = s.key.set k d := rfl
@[simp] theorem State.run_setKeyFlag (s : State) (k : KeyCode) (d : Bool) : (s.setKeyFlag k d).run = s.run := rfl
@[simp] theorem State.fault_setKeyFlag (s : State) (k : KeyCode) (d : Bool) : (s.setKeyFlag k d).fault = s.fault := rfl
@[simp] theorem State.draws_setKeyFlag (s : State) (k : KeyCode) (d : Bool) : (s.setKeyFlag k d).draws = s.draws := rfl

/-! `State.setRun` -/

@[simp] theorem State.v_setRun (s : State) (q : RunState) : (s.setRun q).v = s.v := rfl
@[simp] theorem State.i_setRun (s : State) (q : RunState) : (s.setRun q).i = s.i := rfl
@[simp] theorem State.pc_setRun (s : State) (q : RunState) : (s.setRun q).pc = s.pc := rfl
@[simp] theorem State.sp_setRun (s : State) (q : RunState) : (s.setRun q).sp = s.sp := rfl
@[simp] theorem State.stack_setRun (s : State) (q : RunState) : (s.setRun q).stack = s.stack := rfl
@[simp] theorem State.dt_setRun (s : State) (q : RunState) : (s.setRun q).dt = s.dt := rfl
@[simp] theorem State.st_setRun (s : State) (q : RunState) : (s.setRun q).st = s.st := rfl
@[simp] theorem State.mem_setRun (s : State) (q : RunState) : (s.setRun q).mem = s.mem := rfl
@[simp] theorem State.fb_setRun (s : State) (q : RunState) : (s.setRun q).fb = s.fb := rfl
@[simp] theorem State.key_setRun (s : State) (q : RunState) : (s.setRun q).key = s.key := rfl
@[simp] theorem State.run_setRun (s : State) (q : RunState) : (s.setRun q).run = q := rfl
@[simp] theorem State.fault_setRun (s : State) (q : RunState) : (s.setRun q).fault = s.fault := rfl
@[simp] theorem State.draws_setRun (s : State) (q : RunState) : (s.setRun q).draws = s.draws := rfl

/-! `State.setFault` -/

@[simp] theorem State.v_setFault (s : State) (f : FaultRecord) : (s.setFault f).v = s.v := rfl
@[simp] theorem State.i_setFault (s : State) (f : FaultRecord) : (s.setFault f).i = s.i := rfl
@[simp] theorem State.pc_setFault (s : State) (f : FaultRecord) : (s.setFault f).pc = s.pc := rfl
@[simp] theorem State.sp_setFault (s : State) (f : FaultRecord) : (s.setFault f).sp = s.sp := rfl
@[simp] theorem State.stack_setFault (s : State) (f : FaultRecord) : (s.setFault f).stack = s.stack := rfl
@[simp] theorem State.dt_setFault (s : State) (f : FaultRecord) : (s.setFault f).dt = s.dt := rfl
@[simp] theorem State.st_setFault (s : State) (f : FaultRecord) : (s.setFault f).st = s.st := rfl
@[simp] theorem State.mem_setFault (s : State) (f : FaultRecord) : (s.setFault f).mem = s.mem := rfl
@[simp] theorem State.fb_setFault (s : State) (f : FaultRecord) : (s.setFault f).fb = s.fb := rfl
@[simp] theorem State.key_setFault (s : State) (f : FaultRecord) : (s.setFault f).key = s.key := rfl
@[simp] theorem State.run_setFault (s : State) (f : FaultRecord) : (s.setFault f).run = s.run := rfl
@[simp] theorem State.fault_setFault (s : State) (f : FaultRecord) : (s.setFault f).fault = f := rfl
@[simp] theorem State.draws_setFault (s : State) (f : FaultRecord) : (s.setFault f).draws = s.draws := rfl

/-! `State.countDraw` -/

@[simp] theorem State.v_countDraw (s : State) : (s.countDraw).v = s.v := rfl
@[simp] theorem State.i_countDraw (s : State) : (s.countDraw).i = s.i := rfl
@[simp] theorem State.pc_countDraw (s : State) : (s.countDraw).pc = s.pc := rfl
@[simp] theorem State.sp_countDraw (s : State) : (s.countDraw).sp = s.sp := rfl
@[simp] theorem State.stack_countDraw (s : State) : (s.countDraw).stack = s.stack := rfl
@[simp] theorem State.dt_countDraw (s : State) : (s.countDraw).dt = s.dt := rfl
@[simp] theorem State.st_countDraw (s : State) : (s.countDraw).st = s.st := rfl
@[simp] theorem State.mem_countDraw (s : State) : (s.countDraw).mem = s.mem := rfl
@[simp] theorem State.fb_countDraw (s : State) : (s.countDraw).fb = s.fb := rfl
@[simp] theorem State.key_countDraw (s : State) : (s.countDraw).key = s.key := rfl
@[simp] theorem State.run_countDraw (s : State) : (s.countDraw).run = s.run := rfl
@[simp] theorem State.fault_countDraw (s : State) : (s.countDraw).fault = s.fault := rfl
@[simp] theorem State.draws_countDraw (s : State) : (s.countDraw).draws = s.draws + 1 := rfl

/-! `State.advance` -/

@[simp] theorem State.v_advance (s : State) : (s.advance).v = s.v := rfl
@[simp] theorem State.i_advance (s : State) : (s.advance).i = s.i := rfl
@[simp] theorem State.pc_advance (s : State) : (s.advance).pc = s.pc + 2#16 := rfl
@[simp] theorem State.sp_advance (s : State) : (s.advance).sp = s.sp := rfl
@[simp] theorem State.stack_advance (s : State) : (s.advance).stack = s.stack := rfl
@[simp] theorem State.dt_advance (s : State) : (s.advance).dt = s.dt := rfl
@[simp] theorem State.st_advance (s : State) : (s.advance).st = s.st := rfl
@[simp] theorem State.mem_advance (s : State) : (s.advance).mem = s.mem := rfl
@[simp] theorem State.fb_advance (s : State) : (s.advance).fb = s.fb := rfl
@[simp] theorem State.key_advance (s : State) : (s.advance).key = s.key := rfl
@[simp] theorem State.run_advance (s : State) : (s.advance).run = s.run := rfl
@[simp] theorem State.fault_advance (s : State) : (s.advance).fault = s.fault := rfl
@[simp] theorem State.draws_advance (s : State) : (s.advance).draws = s.draws := rfl

/-! `State.skipIf` -/

@[simp] theorem State.v_skipIf (s : State) (c : Bool) : (s.skipIf c).v = s.v := rfl
@[simp] theorem State.i_skipIf (s : State) (c : Bool) : (s.skipIf c).i = s.i := rfl
@[simp] theorem State.pc_skipIf (s : State) (c : Bool) : (s.skipIf c).pc = s.pc + (if c then 4#16 else 2#16) := rfl
@[simp] theorem State.sp_skipIf (s : State) (c : Bool) : (s.skipIf c).sp = s.sp := rfl
@[simp] theorem State.stack_skipIf (s : State) (c : Bool) : (s.skipIf c).stack = s.stack := rfl
@[simp] theorem State.dt_skipIf (s : State) (c : Bool) : (s.skipIf c).dt = s.dt := rfl
@[simp] theorem State.st_skipIf (s : State) (c : Bool) : (s.skipIf c).st = s.st := rfl
@[simp] theorem State.mem_skipIf (s : State) (c : Bool) : (s.skipIf c).mem = s.mem := rfl
@[simp] theorem State.fb_skipIf (s : State) (c : Bool) : (s.skipIf c).fb = s.fb := rfl
@[simp] theorem State.key_skipIf (s : State) (c : Bool) : (s.skipIf c).key = s.key := rfl
@[simp] theorem State.run_skipIf (s : State) (c : Bool) : (s.skipIf c).run = s.run := rfl
@[simp] theorem State.fault_skipIf (s : State) (c : Bool) : (s.skipIf c).fault = s.fault := rfl
@[simp] theorem State.draws_skipIf (s : State) (c : Bool) : (s.skipIf c).draws = s.draws := rfl

/-! `State.faultEntry` -/

@[simp] theorem State.v_faultEntry (s : State) (f : Fault) : (s.faultEntry f).v = s.v := rfl
@[simp] theorem State.i_faultEntry (s : State) (f : Fault) : (s.faultEntry f).i = s.i := rfl
@[simp] theorem State.pc_faultEntry (s : State) (f : Fault) : (s.faultEntry f).pc = s.pc := rfl
@[simp] theorem State.sp_faultEntry (s : State) (f : Fault) : (s.faultEntry f).sp = s.sp := rfl
@[simp] theorem State.stack_faultEntry (s : State) (f : Fault) : (s.faultEntry f).stack = s.stack := rfl
@[simp] theorem State.dt_faultEntry (s : State) (f : Fault) : (s.faultEntry f).dt = s.dt := rfl
@[simp] theorem State.st_faultEntry (s : State) (f : Fault) : (s.faultEntry f).st = s.st := rfl
@[simp] theorem State.mem_faultEntry (s : State) (f : Fault) : (s.faultEntry f).mem = s.mem := rfl
@[simp] theorem State.fb_faultEntry (s : State) (f : Fault) : (s.faultEntry f).fb = s.fb := rfl
@[simp] theorem State.key_faultEntry (s : State) (f : Fault) : (s.faultEntry f).key = s.key := rfl
@[simp] theorem State.run_faultEntry (s : State) (f : Fault) : (s.faultEntry f).run = .halted := rfl
@[simp] theorem State.fault_faultEntry (s : State) (f : Fault) : (s.faultEntry f).fault = ⟨faultCode f, s.pc, faultInfo f⟩ := rfl
@[simp] theorem State.draws_faultEntry (s : State) (f : Fault) : (s.faultEntry f).draws = s.draws := rfl

/-! Reading a register -/

@[simp] theorem State.readV_writeV_self (s : State) (r : RegIdx) (b : Byte) : (s.writeV r b).readV r = b := by
  simp [State.readV]

theorem State.readV_writeV_of_ne (s : State) {r q : RegIdx} (b : Byte) (h : q ≠ r) : (s.writeV r b).readV q = s.readV q := by
  have : r.val ≠ q.val := fun e => h (Fin.ext e.symm)
  simp [State.readV, Vector.getElem_set_ne, this]

theorem State.readV_writeV (s : State) (r q : RegIdx) (b : Byte) :
    (s.writeV r b).readV q = if q = r then b else s.readV q := by
  by_cases h : q = r
  · simp [h]
  · simp [h, s.readV_writeV_of_ne b h]

@[simp] theorem State.readV_setI (s : State) (a : Word) (q : RegIdx) : (s.setI a).readV q = s.readV q := rfl
@[simp] theorem State.readV_setPc (s : State) (a : Word) (q : RegIdx) : (s.setPc a).readV q = s.readV q := rfl
@[simp] theorem State.readV_setCallStack (s : State) (n : Fin 17) (k : Vector Word 16) (q : RegIdx) : (s.setCallStack n k).readV q = s.readV q := rfl
@[simp] theorem State.readV_setDT (s : State) (b : Byte) (q : RegIdx) : (s.setDT b).readV q = s.readV q := rfl
@[simp] theorem State.readV_setST (s : State) (b : Byte) (q : RegIdx) : (s.setST b).readV q = s.readV q := rfl
@[simp] theorem State.readV_setMem (s : State) (m : Memory) (q : RegIdx) : (s.setMem m).readV q = s.readV q := rfl
@[simp] theorem State.readV_setFb (s : State) (g : Framebuffer) (q : RegIdx) : (s.setFb g).readV q = s.readV q := rfl
@[simp] theorem State.readV_setKeyFlag (s : State) (k : KeyCode) (d : Bool) (q : RegIdx) : (s.setKeyFlag k d).readV q = s.readV q := rfl
@[simp] theorem State.readV_setRun (s : State) (u : RunState) (q : RegIdx) : (s.setRun u).readV q = s.readV q := rfl
@[simp] theorem State.readV_setFault (s : State) (f : FaultRecord) (q : RegIdx) : (s.setFault f).readV q = s.readV q := rfl
@[simp] theorem State.readV_countDraw (s : State) (q : RegIdx) : (s.countDraw).readV q = s.readV q := rfl
@[simp] theorem State.readV_advance (s : State) (q : RegIdx) : (s.advance).readV q = s.readV q := rfl
@[simp] theorem State.readV_skipIf (s : State) (c : Bool) (q : RegIdx) : (s.skipIf c).readV q = s.readV q := rfl
@[simp] theorem State.readV_faultEntry (s : State) (f : Fault) (q : RegIdx) : (s.faultEntry f).readV q = s.readV q := rfl
@[simp] theorem State.readV_setRegs (s : State) (w : Vector Byte 16) (q : RegIdx) : (s.setRegs w).readV q = w[q] := rfl

end Sys2Proof.Machine
end

