-- ==== Sys2Proof/Laws/Ops.lean ====
section
/-!
SUPPORT. For each shared operation, once, everything it can do: the later proofs cite these and do not unfold the operation.
-/
namespace Sys2Proof.Machine

/-! ### Bounds -/

/-- The access is within memory, or it touches no byte. -/
abbrev InBounds (addr n : Nat) : Prop := n = 0 ∨ addr + n ≤ 4096

theorem boundsFault_eq_none_iff (addr n : Nat) : boundsFault addr n = none ↔ InBounds addr n := by
  unfold boundsFault
  split <;> simp <;> omega

theorem boundsFault_of_inBounds {addr n : Nat} (h : InBounds addr n) : boundsFault addr n = none :=
  (boundsFault_eq_none_iff addr n).2 h

theorem boundsFault_of_not_inBounds {addr n : Nat} (h : ¬ InBounds addr n) :
    boundsFault addr n = some (.outOfBounds (BitVec.ofNat 16 (max addr 4096))) := by
  unfold boundsFault
  rw [if_pos]
  omega

theorem State.memRead_of_inBounds (s : State) {addr n : Nat} (h : InBounds addr n) :
    s.memRead addr n = .ok (s.mem.readBytes addr n) := by
  simp [State.memRead, boundsFault_of_inBounds h]

theorem State.memRead_of_not_inBounds (s : State) {addr n : Nat} (h : ¬ InBounds addr n) :
    s.memRead addr n = .error (.outOfBounds (BitVec.ofNat 16 (max addr 4096))) := by
  simp [State.memRead, boundsFault_of_not_inBounds h]

theorem State.memWrite_of_inBounds (s : State) {addr : Nat} {bs : List Byte} (h : InBounds addr bs.length) :
    s.memWrite addr bs = .ok (s.setMem (s.mem.writeBytes addr bs)) := by
  simp [State.memWrite, boundsFault_of_inBounds h]

theorem State.memWrite_of_not_inBounds (s : State) {addr : Nat} {bs : List Byte} (h : ¬ InBounds addr bs.length) :
    s.memWrite addr bs = .error (.outOfBounds (BitVec.ofNat 16 (max addr 4096))) := by
  simp [State.memWrite, boundsFault_of_not_inBounds h]

/-- A fetch succeeds exactly when `pc <= 0xFFE` (R91). -/
theorem State.fetch_of_le (s : State) (h : s.pc.toNat ≤ 0xFFE) :
    s.fetch = .ok (bigEndian (s.mem.read s.pc.toNat) (s.mem.read (s.pc.toNat + 1))) := by
  simp [State.fetch, boundsFault_of_inBounds (show InBounds s.pc.toNat 2 by right; omega)]

theorem State.fetch_of_gt (s : State) (h : 0xFFE < s.pc.toNat) :
    s.fetch = .error (.outOfBounds (BitVec.ofNat 16 (max s.pc.toNat 4096))) := by
  simp [State.fetch, boundsFault_of_not_inBounds (show ¬ InBounds s.pc.toNat 2 by unfold InBounds; omega)]

theorem State.le_of_fetch_ok {s : State} {op : Word} (h : s.fetch = .ok op) : s.pc.toNat ≤ 0xFFE := by
  by_contra hc
  rw [s.fetch_of_gt (by omega)] at h
  cases h

/-! ### The end of a step -/

@[simp] theorem State.finish_ok (s t : State) : s.finish (.ok t) = .next t := rfl

@[simp] theorem State.finish_error (s : State) (f : Fault) : s.finish (.error f) = .next (s.faultEntry f) := rfl

/-- A step that ends in `finish` answers a next state: the writes, or fault entry on the state before. -/
theorem State.finish_cases {s t : State} {r : Except Fault State} (h : s.finish r = .next t) :
    r = .ok t ∨ ∃ f, r = .error f ∧ t = s.faultEntry f := by
  cases r with
  | ok u => cases h; exact .inl rfl
  | error f => cases h; exact .inr ⟨f, rfl, rfl⟩

/-! ### The call stack -/

theorem State.push_of_lt (s : State) (w : Word) (h : s.sp.val < 16) :
    s.push w = .ok (s.setCallStack ⟨s.sp.val + 1, by omega⟩ (s.stack.set s.sp.val w h)) := by
  simp [State.push, h]

theorem State.push_full (s : State) (w : Word) (h : s.sp = 16) : s.push w = .error .stackOverflow := by
  simp [State.push, h]

theorem State.pop_of_pos (s : State) (h : 0 < s.sp.val) :
    s.pop = .ok (s.stack[s.sp.val - 1]'(by omega), s.setCallStack ⟨s.sp.val - 1, by omega⟩ s.stack) := by
  simp [State.pop, h]

theorem State.pop_empty (s : State) (h : s.sp = 0) : s.pop = .error .stackUnderflow := by
  simp [State.pop, h]

/-- What a push that succeeds leaves: one more entry, the pushed word on top, everything else the same. -/
theorem State.push_cases {s t : State} {w : Word} (h : s.push w = .ok t) :
    ∃ hs : s.sp.val < 16, t = s.setCallStack ⟨s.sp.val + 1, by omega⟩ (s.stack.set s.sp.val w hs) := by
  unfold State.push at h
  split at h
  · rename_i hs
    cases h
    exact ⟨hs, rfl⟩
  · cases h

/-- What a pop that succeeds gives: the newest entry, and the state with one entry less. -/
theorem State.pop_cases {s t : State} {w : Word} (h : s.pop = .ok (w, t)) :
    ∃ hs : 0 < s.sp.val, w = s.stack[s.sp.val - 1]'(by omega) ∧ t = s.setCallStack ⟨s.sp.val - 1, by omega⟩ s.stack := by
  unfold State.pop at h
  split at h
  · rename_i hs
    cases h
    exact ⟨hs, rfl, rfl⟩
  · cases h

/-! ### The keypad -/

theorem mem_keyCodes (k : KeyCode) : k ∈ keyCodes := by
  revert k
  decide

/-- No key is down exactly when the query answers none (R181). -/
theorem State.anyPressed_eq_none_iff (s : State) : s.anyPressed = none ↔ ∀ k : KeyCode, s.key[k] = false := by
  unfold State.anyPressed
  rw [List.find?_eq_none]
  constructor
  · intro h k
    simpa using h k (mem_keyCodes k)
  · intro h k _
    simpa using h k

/-- The query answers the lowest key that is down (R181). -/
theorem State.anyPressed_some {s : State} {k : KeyCode} (h : s.anyPressed = some k) :
    s.key[k] = true ∧ ∀ j : KeyCode, j < k → s.key[j] = false := by
  unfold State.anyPressed at h
  refine ⟨by simpa using List.find?_some h, ?_⟩
  rw [List.find?_eq_some_iff_append] at h
  obtain ⟨_, as, bs, hsplit, hnot⟩ := h
  intro j hj
  have hmem : j ∈ as := by
    have hall := mem_keyCodes j
    have hsorted : keyCodes.Pairwise (· < ·) := by decide
    rw [hsplit] at hall hsorted
    rw [List.mem_append] at hall
    rcases hall with h1 | h2
    · exact h1
    · rw [List.mem_cons] at h2
      rcases h2 with h2 | h2
      · exact absurd (h2 ▸ hj) (lt_irrefl _)
      · have := (List.pairwise_cons.1 (List.pairwise_append.1 hsorted).2.1).1 j h2
        exact absurd (hj.trans this) (lt_irrefl _)
  simpa using hnot j hmem

theorem State.isPressed_of_lt (s : State) {code : Byte} (h : code.toNat < 16) : s.isPressed code = s.key[code.toNat] := by
  simp [State.isPressed, h]

theorem State.isPressed_of_ge (s : State) {code : Byte} (h : 16 ≤ code.toNat) : s.isPressed code = false := by
  simp [State.isPressed, Nat.not_lt.2 h]

/-! ### Register blocks -/

@[simp] theorem State.length_regBlock (s : State) (x : RegIdx) : (s.regBlock x).length = x.val + 1 := by
  simp [State.regBlock]

theorem State.getElem_regBlock (s : State) (x : RegIdx) (k : Nat) (hk : k < (s.regBlock x).length) :
    (s.regBlock x)[k] = s.readV ⟨k, by simp at hk; omega⟩ := by
  simp [State.regBlock, State.readV]

/-- A block load gives register `k + j` the `j`-th byte, and leaves the other registers. -/
theorem getElem_loadBlock (v : Vector Byte 16) (k : Nat) (bs : List Byte) (hk : k + bs.length ≤ 16) (q : Nat) (hq : q < 16) :
    (loadBlock v k bs)[q] = if h : k ≤ q ∧ q < k + bs.length then bs[q - k]'(by omega) else v[q] := by
  induction bs generalizing v k with
  | nil =>
    simp only [loadBlock, List.length_nil, Nat.add_zero]
    rw [dif_neg (by omega)]
  | cons b bs ih =>
    simp only [List.length_cons] at hk
    rw [loadBlock, dif_pos (by omega), ih _ _ (by omega)]
    by_cases h1 : k + 1 ≤ q ∧ q < k + 1 + bs.length
    · rw [dif_pos h1, dif_pos (by simp only [List.length_cons]; omega)]
      have : q - k = (q - (k + 1)) + 1 := by omega
      simp [this]
    · rw [dif_neg h1]
      by_cases h2 : q = k
      · subst h2
        simp
      · rw [dif_neg (by simp only [List.length_cons]; omega), Vector.getElem_set_ne _ _ (by omega)]

/-! ### Flags -/

theorem flagByte_eq (b : Bool) : flagByte b = 0#8 ∨ flagByte b = 1#8 := by
  cases b <;> simp [flagByte]

/-- With `x` not 15, VF ends as the flag; with `x = 15` the result remains (R22). -/
theorem State.readV_writeFlagged (s : State) (x q : RegIdx) (flag : Bool) (result : Byte) :
    (s.writeFlagged x flag result).readV q =
      if q = x then result else if q = vf then flagByte flag else s.readV q := by
  simp [State.writeFlagged, State.readV_writeV]

end Sys2Proof.Machine
end

