-- ==== Sys2Proof/Laws/PerInstr.lean ====
section
/-!
SUPPORT. What holds of every instruction as syntax, one lemma per constructor (30_encoding R95, R100).
-/
namespace Sys2Proof.Laws.Coding

/-- The instruction's row is a row of the opcode table, its word matches that row, and the decoder reads the instruction back
from its word. -/
def Statement (i : Instr) : Prop := i.row ∈ opTable ∧ i.row.matches (encode i) = true ∧ decodeWord (encode i) = .ok i

theorem cls : Statement .cls := by
  refine ⟨by decide, by decide, by rfl⟩

theorem ret : Statement .ret := by
  refine ⟨by decide, by decide, by rfl⟩

theorem jp (nnn : BitVec 12) : Statement (.jp nnn) := by
  refine ⟨by simp only [Instr.row]; decide, ?_, ?_⟩
  · simp only [OpRow.matches, Instr.row, encode, encodeNNN_mask]
    decide
  · simp [encode, decodeWord]

theorem call (nnn : BitVec 12) : Statement (.call nnn) := by
  refine ⟨by simp only [Instr.row]; decide, ?_, ?_⟩
  · simp only [OpRow.matches, Instr.row, encode, encodeNNN_mask]
    decide
  · simp [encode, decodeWord]

theorem seImm (x : RegIdx) (kk : Byte) : Statement (.seImm x kk) := by
  refine ⟨by simp only [Instr.row]; decide, ?_, ?_⟩
  · simp only [OpRow.matches, Instr.row, encode, encodeXKK_mask]
    decide
  · simp [encode, decodeWord]

theorem sneImm (x : RegIdx) (kk : Byte) : Statement (.sneImm x kk) := by
  refine ⟨by simp only [Instr.row]; decide, ?_, ?_⟩
  · simp only [OpRow.matches, Instr.row, encode, encodeXKK_mask]
    decide
  · simp [encode, decodeWord]

theorem seReg (x y : RegIdx) : Statement (.seReg x y) := by
  refine ⟨by simp only [Instr.row]; decide, ?_, ?_⟩
  · simp only [OpRow.matches, Instr.row, encode, encodeXY_mask]
    decide
  · simp [encode, decodeWord]

theorem ldImm (x : RegIdx) (kk : Byte) : Statement (.ldImm x kk) := by
  refine ⟨by simp only [Instr.row]; decide, ?_, ?_⟩
  · simp only [OpRow.matches, Instr.row, encode, encodeXKK_mask]
    decide
  · simp [encode, decodeWord]

theorem addImm (x : RegIdx) (kk : Byte) : Statement (.addImm x kk) := by
  refine ⟨by simp only [Instr.row]; decide, ?_, ?_⟩
  · simp only [OpRow.matches, Instr.row, encode, encodeXKK_mask]
    decide
  · simp [encode, decodeWord]

theorem ldReg (x y : RegIdx) : Statement (.ldReg x y) := by
  refine ⟨by simp only [Instr.row]; decide, ?_, ?_⟩
  · simp only [OpRow.matches, Instr.row, encode, encodeXY_mask]
    decide
  · simp [encode, decodeWord, decodeGroup8]

theorem orReg (x y : RegIdx) : Statement (.orReg x y) := by
  refine ⟨by simp only [Instr.row]; decide, ?_, ?_⟩
  · simp only [OpRow.matches, Instr.row, encode, encodeXY_mask]
    decide
  · simp [encode, decodeWord, decodeGroup8]

theorem andReg (x y : RegIdx) : Statement (.andReg x y) := by
  refine ⟨by simp only [Instr.row]; decide, ?_, ?_⟩
  · simp only [OpRow.matches, Instr.row, encode, encodeXY_mask]
    decide
  · simp [encode, decodeWord, decodeGroup8]

theorem xorReg (x y : RegIdx) : Statement (.xorReg x y) := by
  refine ⟨by simp only [Instr.row]; decide, ?_, ?_⟩
  · simp only [OpRow.matches, Instr.row, encode, encodeXY_mask]
    decide
  · simp [encode, decodeWord, decodeGroup8]

theorem addReg (x y : RegIdx) : Statement (.addReg x y) := by
  refine ⟨by simp only [Instr.row]; decide, ?_, ?_⟩
  · simp only [OpRow.matches, Instr.row, encode, encodeXY_mask]
    decide
  · simp [encode, decodeWord, decodeGroup8]

theorem subReg (x y : RegIdx) : Statement (.subReg x y) := by
  refine ⟨by simp only [Instr.row]; decide, ?_, ?_⟩
  · simp only [OpRow.matches, Instr.row, encode, encodeXY_mask]
    decide
  · simp [encode, decodeWord, decodeGroup8]

theorem shr (x y : RegIdx) : Statement (.shr x y) := by
  refine ⟨by simp only [Instr.row]; decide, ?_, ?_⟩
  · simp only [OpRow.matches, Instr.row, encode, encodeXY_mask]
    decide
  · simp [encode, decodeWord, decodeGroup8]

theorem subnReg (x y : RegIdx) : Statement (.subnReg x y) := by
  refine ⟨by simp only [Instr.row]; decide, ?_, ?_⟩
  · simp only [OpRow.matches, Instr.row, encode, encodeXY_mask]
    decide
  · simp [encode, decodeWord, decodeGroup8]

theorem shl (x y : RegIdx) : Statement (.shl x y) := by
  refine ⟨by simp only [Instr.row]; decide, ?_, ?_⟩
  · simp only [OpRow.matches, Instr.row, encode, encodeXY_mask]
    decide
  · simp [encode, decodeWord, decodeGroup8]

theorem sneReg (x y : RegIdx) : Statement (.sneReg x y) := by
  refine ⟨by simp only [Instr.row]; decide, ?_, ?_⟩
  · simp only [OpRow.matches, Instr.row, encode, encodeXY_mask]
    decide
  · simp [encode, decodeWord]

theorem ldI (nnn : BitVec 12) : Statement (.ldI nnn) := by
  refine ⟨by simp only [Instr.row]; decide, ?_, ?_⟩
  · simp only [OpRow.matches, Instr.row, encode, encodeNNN_mask]
    decide
  · simp [encode, decodeWord]

theorem jpV0 (nnn : BitVec 12) : Statement (.jpV0 nnn) := by
  refine ⟨by simp only [Instr.row]; decide, ?_, ?_⟩
  · simp only [OpRow.matches, Instr.row, encode, encodeNNN_mask]
    decide
  · simp [encode, decodeWord]

theorem rnd (x : RegIdx) (kk : Byte) : Statement (.rnd x kk) := by
  refine ⟨by simp only [Instr.row]; decide, ?_, ?_⟩
  · simp only [OpRow.matches, Instr.row, encode, encodeXKK_mask]
    decide
  · simp [encode, decodeWord]

theorem drw (x y : RegIdx) (n : Fin 16) : Statement (.drw x y n) := by
  refine ⟨by simp only [Instr.row]; decide, ?_, ?_⟩
  · simp only [OpRow.matches, Instr.row, encode, encodeXYN_mask]
    decide
  · simp [encode, decodeWord]

theorem skp (x : RegIdx) : Statement (.skp x) := by
  refine ⟨by simp only [Instr.row]; decide, ?_, ?_⟩
  · simp only [OpRow.matches, Instr.row, encode, encodeX_mask]
    decide
  · simp [encode, decodeWord, decodeGroupE]

theorem sknp (x : RegIdx) : Statement (.sknp x) := by
  refine ⟨by simp only [Instr.row]; decide, ?_, ?_⟩
  · simp only [OpRow.matches, Instr.row, encode, encodeX_mask]
    decide
  · simp [encode, decodeWord, decodeGroupE]

theorem ldFromDT (x : RegIdx) : Statement (.ldFromDT x) := by
  refine ⟨by simp only [Instr.row]; decide, ?_, ?_⟩
  · simp only [OpRow.matches, Instr.row, encode, encodeX_mask]
    decide
  · simp [encode, decodeWord, decodeGroupF]

theorem ldKey (x : RegIdx) : Statement (.ldKey x) := by
  refine ⟨by simp only [Instr.row]; decide, ?_, ?_⟩
  · simp only [OpRow.matches, Instr.row, encode, encodeX_mask]
    decide
  · simp [encode, decodeWord, decodeGroupF]

theorem ldDT (x : RegIdx) : Statement (.ldDT x) := by
  refine ⟨by simp only [Instr.row]; decide, ?_, ?_⟩
  · simp only [OpRow.matches, Instr.row, encode, encodeX_mask]
    decide
  · simp [encode, decodeWord, decodeGroupF]

theorem ldST (x : RegIdx) : Statement (.ldST x) := by
  refine ⟨by simp only [Instr.row]; decide, ?_, ?_⟩
  · simp only [OpRow.matches, Instr.row, encode, encodeX_mask]
    decide
  · simp [encode, decodeWord, decodeGroupF]

theorem addI (x : RegIdx) : Statement (.addI x) := by
  refine ⟨by simp only [Instr.row]; decide, ?_, ?_⟩
  · simp only [OpRow.matches, Instr.row, encode, encodeX_mask]
    decide
  · simp [encode, decodeWord, decodeGroupF]

theorem ldF (x : RegIdx) : Statement (.ldF x) := by
  refine ⟨by simp only [Instr.row]; decide, ?_, ?_⟩
  · simp only [OpRow.matches, Instr.row, encode, encodeX_mask]
    decide
  · simp [encode, decodeWord, decodeGroupF]

theorem ldB (x : RegIdx) : Statement (.ldB x) := by
  refine ⟨by simp only [Instr.row]; decide, ?_, ?_⟩
  · simp only [OpRow.matches, Instr.row, encode, encodeX_mask]
    decide
  · simp [encode, decodeWord, decodeGroupF]

theorem storeRegs (x : RegIdx) : Statement (.storeRegs x) := by
  refine ⟨by simp only [Instr.row]; decide, ?_, ?_⟩
  · simp only [OpRow.matches, Instr.row, encode, encodeX_mask]
    decide
  · simp [encode, decodeWord, decodeGroupF]

theorem loadRegs (x : RegIdx) : Statement (.loadRegs x) := by
  refine ⟨by simp only [Instr.row]; decide, ?_, ?_⟩
  · simp only [OpRow.matches, Instr.row, encode, encodeX_mask]
    decide
  · simp [encode, decodeWord, decodeGroupF]

end Sys2Proof.Laws.Coding
end

