-- ==== Sys2Proof/Laws/Step.lean ====
section
/-!
SUPPORT. What a step can do, case by case (30_encoding R90), and the block operations in the terms of single bytes.
-/
namespace Sys2Proof.Machine

theorem step_of_halted {s : State} (h : s.run = .halted) : step s = .next s := by
  simp [step, h]

theorem step_of_awaitingKey {s : State} {r : RegIdx} (h : s.run = .awaitingKey r) : step s = keyWaitStep r s := by
  simp [step, h]

theorem step_of_fetch_error {s : State} {f : Fault} (h : s.run = .running) (hf : s.fetch = .error f) :
    step s = .next (s.faultEntry f) := by
  simp [step, h, hf]

theorem step_of_decode_ok {s : State} {op : Word} {i : Instr} (h : s.run = .running) (hf : s.fetch = .ok op)
    (hd : decodeWord op = .ok i) : step s = exec i s := by
  simp [step, h, hf, hd]

theorem step_of_decode_error {s : State} {op : Word} {e : Reject} (h : s.run = .running) (hf : s.fetch = .ok op)
    (hd : decodeWord op = .error e) : step s = .next s.unknownStep := by
  simp [step, h, hf, hd]

/-- Everything a step can do. -/
theorem step_cases (s : State) :
    (s.run = .halted ∧ step s = .next s) ∨
    (∃ r, s.run = .awaitingKey r ∧ step s = keyWaitStep r s) ∨
    (s.run = .running ∧ 0xFFE < s.pc.toNat ∧
      step s = .next (s.faultEntry (.outOfBounds (BitVec.ofNat 16 (max s.pc.toNat 4096))))) ∨
    (∃ op i, s.run = .running ∧ s.pc.toNat ≤ 0xFFE ∧ s.fetch = .ok op ∧ decodeWord op = .ok i ∧ step s = exec i s) ∨
    (∃ op e, s.run = .running ∧ s.pc.toNat ≤ 0xFFE ∧ s.fetch = .ok op ∧ decodeWord op = .error e ∧
      step s = .next s.unknownStep) := by
  cases hr : s.run with
  | halted => exact .inl ⟨rfl, step_of_halted hr⟩
  | awaitingKey r => exact .inr (.inl ⟨r, rfl, step_of_awaitingKey hr⟩)
  | running =>
    by_cases hp : s.pc.toNat ≤ 0xFFE
    · have hf := s.fetch_of_le hp
      cases hd : decodeWord (bigEndian (s.mem.read s.pc.toNat) (s.mem.read (s.pc.toNat + 1))) with
      | ok i => exact .inr (.inr (.inr (.inl ⟨_, i, rfl, hp, hf, hd, step_of_decode_ok hr hf hd⟩)))
      | error e => exact .inr (.inr (.inr (.inr ⟨_, e, rfl, hp, hf, hd, step_of_decode_error hr hf hd⟩)))
    · exact .inr (.inr (.inl ⟨rfl, by omega, step_of_fetch_error hr (s.fetch_of_gt (by omega))⟩))

/-- The bytes of a block, written as the spec's comprehension over the addresses. -/
theorem Memory.readBytes_eq_map (m : Memory) (a n : Nat) : m.readBytes a n = (List.range n).map fun k => m.read (a + k) := by
  apply List.ext_getElem
  · simp
  · intro k h1 h2
    simp [Memory.getElem_readBytes]

/-- The key-wait step answers a next state: the same one, or the one with the key taken and the stream running. -/
theorem keyWaitStep_cases (r : RegIdx) (s : State) :
    (s.anyPressed = none ∧ keyWaitStep r s = .next s) ∨
    ∃ k, s.anyPressed = some k ∧ keyWaitStep r s = .next ((s.takeKey r k).setRun .running) := by
  unfold keyWaitStep
  cases h : s.anyPressed with
  | none => exact .inl ⟨rfl, rfl⟩
  | some k => exact .inr ⟨k, rfl, rfl⟩

/-- A store at `I` answers a next state: the bytes written and `pc + 2`, or fault entry on the state before. -/
theorem State.storeAtI_cases (s : State) (bs : List Byte) :
    (InBounds s.dataAddr bs.length ∧
      s.storeAtI bs = .next (s.setMem (s.mem.writeBytes s.dataAddr bs)).advance) ∨
    (¬ InBounds s.dataAddr bs.length ∧
      s.storeAtI bs = .next (s.faultEntry (.outOfBounds (BitVec.ofNat 16 (max s.dataAddr 4096))))) := by
  by_cases h : InBounds s.dataAddr bs.length
  · exact .inl ⟨h, by simp [State.storeAtI, s.memWrite_of_inBounds h]⟩
  · exact .inr ⟨h, by simp [State.storeAtI, s.memWrite_of_not_inBounds h]⟩

/-- A register load at `I` answers a next state: V0 to Vx loaded and `pc + 2`, or fault entry on the state before. -/
theorem execLoadRegs_cases (x : RegIdx) (s : State) :
    (InBounds s.dataAddr (x.val + 1) ∧
      execLoadRegs x s = .next (s.setRegs (loadBlock s.v 0 (s.mem.readBytes s.dataAddr (x.val + 1)))).advance) ∨
    (¬ InBounds s.dataAddr (x.val + 1) ∧
      execLoadRegs x s = .next (s.faultEntry (.outOfBounds (BitVec.ofNat 16 (max s.dataAddr 4096))))) := by
  by_cases h : InBounds s.dataAddr (x.val + 1)
  · exact .inl ⟨h, by unfold execLoadRegs; rw [s.memRead_of_inBounds h]; rfl⟩
  · exact .inr ⟨h, by unfold execLoadRegs; rw [s.memRead_of_not_inBounds h]; rfl⟩

/-- What a block load of `x + 1` bytes leaves in each register. -/
theorem State.readV_loadBlock (s : State) (x r : RegIdx) (a : Nat) :
    (s.setRegs (loadBlock s.v 0 (s.mem.readBytes a (x.val + 1)))).readV r =
      if r ≤ x then s.mem.read (a + r.val) else s.readV r := by
  have hx := x.isLt
  have hload := getElem_loadBlock s.v 0 (s.mem.readBytes a (x.val + 1)) (by simp) r.val r.isLt
  rw [State.readV_setRegs]
  refine hload.trans ?_
  by_cases h : r ≤ x
  · have hv : r.val ≤ x.val := h
    rw [dif_pos (by simp; omega), if_pos h, Memory.getElem_readBytes, Nat.sub_zero]
  · have hv : ¬ r.val ≤ x.val := h
    rw [dif_neg (by simp; omega), if_neg h]
    rfl

/-- A draw answers a next state: the sprite drawn, VF written and `pc + 2`, or fault entry on the state before. -/
theorem execDrw_cases (x y : RegIdx) (n : Fin 16) (s : State) :
    (InBounds s.dataAddr n.val ∧ execDrw x y n s = .next (s.drawn x y (s.mem.readBytes s.dataAddr n.val))) ∨
    (¬ InBounds s.dataAddr n.val ∧
      execDrw x y n s = .next (s.faultEntry (.outOfBounds (BitVec.ofNat 16 (max s.dataAddr 4096))))) := by
  by_cases h : InBounds s.dataAddr n.val
  · exact .inl ⟨h, by unfold execDrw; rw [s.memRead_of_inBounds h]; rfl⟩
  · exact .inr ⟨h, by unfold execDrw; rw [s.memRead_of_not_inBounds h]; rfl⟩

/-- A call answers a next state: one more return address and the jump, or fault entry on the state before. -/
theorem execCall_cases (nnn : BitVec 12) (s : State) :
    (∃ h : s.sp.val < 16, execCall nnn s =
      .next ((s.setCallStack ⟨s.sp.val + 1, by omega⟩ (s.stack.set s.sp.val (s.pc + 2#16) h)).setPc (addrOf nnn))) ∨
    (s.sp = 16 ∧ execCall nnn s = .next (s.faultEntry .stackOverflow)) := by
  by_cases h : s.sp.val < 16
  · exact .inl ⟨h, by simp [execCall, s.push_of_lt _ h]⟩
  · have hs : s.sp = 16 := Fin.ext (by have := s.sp.isLt; show s.sp.val = 16; omega)
    exact .inr ⟨hs, by simp [execCall, s.push_full _ hs]⟩

/-- A return answers a next state: one return address less and `pc` at it, or fault entry on the state before. -/
theorem execRet_cases (s : State) :
    (∃ h : 0 < s.sp.val, execRet s =
      .next ((s.setCallStack ⟨s.sp.val - 1, by omega⟩ s.stack).setPc (s.stack[s.sp.val - 1]'(by omega)))) ∨
    (s.sp = 0 ∧ execRet s = .next (s.faultEntry .stackUnderflow)) := by
  by_cases h : 0 < s.sp.val
  · exact .inl ⟨h, by simp [execRet, s.pop_of_pos h]⟩
  · have hs : s.sp = 0 := Fin.ext (by show s.sp.val = 0; omega)
    exact .inr ⟨hs, by simp [execRet, s.pop_empty hs]⟩

/-- The key instruction answers a next state: awaiting a key, or the key taken. -/
theorem execLdKey_cases (x : RegIdx) (s : State) :
    (s.anyPressed = none ∧ execLdKey x s = .next (s.setRun (.awaitingKey x))) ∨
    ∃ k, s.anyPressed = some k ∧ execLdKey x s = .next (s.takeKey x k) := by
  unfold execLdKey
  cases h : s.anyPressed with
  | none => exact .inl ⟨rfl, rfl⟩
  | some k => exact .inr ⟨k, rfl, rfl⟩

/-- The lowest key that is down is what the query answers. -/
theorem State.anyPressed_eq_some {s : State} {k : KeyCode} (h : s.key[k] = true)
    (hlow : ∀ j : KeyCode, j < k → s.key[j] = false) : s.anyPressed = some k := by
  cases ha : s.anyPressed with
  | none => rw [(s.anyPressed_eq_none_iff.1 ha) k] at h; cases h
  | some j =>
    obtain ⟨hj, hjl⟩ := State.anyPressed_some ha
    rcases lt_trichotomy j k with hlt | heq | hlt
    · rw [hlow j hlt] at hj; cases hj
    · rw [heq]
    · rw [hjl k hlt] at h; cases h

/-- Everything one operation of the host can answer: only `reset` leaves the session fresh, and `load` needs it fresh. -/
theorem Session.apply_cases {op : Op} {c d : Session} (h : c.apply op = .next d) :
    (op = .reset ∧ d = ⟨c.core.restart, true⟩) ∨
    (∃ rom, op = .load rom ∧ c.fresh = true ∧ d = ⟨c.core.load rom, false⟩) ∨
    (∃ s, op = .step ∧ step c.core = .next s ∧ d = ⟨s, false⟩) ∨
    (op = .tickTimer ∧ d = ⟨c.core.tickTimer, false⟩) ∨
    (∃ (code : KeyCode) (down : Bool), op = .setKey code.val down ∧ d = ⟨c.core.setKey code down, false⟩) := by
  cases op with
  | reset => injection h with h; exact .inl ⟨rfl, h.symm⟩
  | load rom =>
    simp only [Session.apply] at h
    split at h
    · rename_i hf; injection h with h; exact .inr (.inl ⟨rom, rfl, hf, h.symm⟩)
    · cases h
  | step =>
    simp only [Session.apply] at h
    split at h
    · rename_i s hs; injection h with h; exact .inr (.inr (.inl ⟨s, rfl, hs, h.symm⟩))
    · cases h
    · cases h
  | tickTimer => injection h with h; exact .inr (.inr (.inr (.inl ⟨rfl, h.symm⟩)))
  | setKey code down =>
    simp only [Session.apply] at h
    split at h
    · rename_i hc; injection h with h; exact .inr (.inr (.inr (.inr ⟨⟨code, hc⟩, down, rfl, h.symm⟩)))
    · cases h

/-- A `load` anywhere but directly after `reset` is refused (R243). -/
theorem Session.apply_load_of_not_fresh {c : Session} (h : c.fresh = false) (rom : List Byte) :
    c.apply (.load rom) = .refused .loadNotAfterReset := by
  simp [Session.apply, h]

end Sys2Proof.Machine
end

