-- ==== Sys2Proof/Tests/Slice0.lean ====
section
/-!
SUPPORT. Tests, each of one step or one operation, whose expected results stand in the spec (95_test_vectors, or the rule the
comment names), and for every statement of the obligations that has hypotheses a witness of a concrete state that meets them.
-/
namespace Sys2Proof.Tests

open Sys2Proof.Machine

/-! ### Small states -/

/-- The core after reset with the word at 0x200 (95_test_vectors: the state before each vector's step). -/
def start (w : Word) : State := State.reset.placeWord w

/-- The state with these registers written. -/
def withV (l : List (RegIdx × Byte)) (s : State) : State := l.foldl (fun t p => t.writeV p.1 p.2) s

/-- The state with these bytes at address `a`. -/
def withMem (a : Nat) (bs : List Byte) (s : State) : State := s.setMem (s.mem.writeBytes a bs)

/-- The state with `sp` entries in use, each of them `w`. -/
def withStack (sp : Fin 17) (w : Word) (s : State) : State := s.setCallStack sp (Vector.replicate 16 w)

/-- The state with one pixel lit. -/
def withPixel (row : Fin 32) (col : Fin 64) (s : State) : State := s.setFb (setPixel s.fb row col true)

/-- One component of the next state, or nothing where there is no next state. -/
def seen {β : Type} (f : State → β) : Answer → Option β
  | .next t => some (f t)
  | .fault _ => none
  | .refused _ => none

/-- Two registers and `pc`. -/
def regs (x y : RegIdx) (s : State) : Byte × Byte × Word := (s.readV x, s.readV y, s.pc)

/-- `run`, the fault record and `pc`: what tells a fault. -/
def stop (s : State) : RunState × FaultRecord × Word := (s.run, s.fault, s.pc)

/-! ### Which words are instructions (R96, 95_test_vectors 2.7) -/

/-- An ill-formed word of each group that has unused words is refused: 0nnn, 5xyN, 8xyN, 9xyN, Exkk, Fxkk. -/
theorem test_wellFormed_refuses :
    [0x0000#16, 0x00E1#16, 0x00EF#16, 0x0123#16, 0x5121#16, 0x8128#16, 0x812F#16, 0x9121#16, 0xE19F#16, 0xE1A0#16,
      0xF100#16, 0xF130#16, 0xFFFF#16].all (fun w => !wellFormedWord w) = true := by decide

/-- One well-formed word of each of those groups is accepted. -/
theorem test_wellFormed_accepts :
    [0x00E0#16, 0x00EE#16, 0x5120#16, 0x8127#16, 0x812E#16, 0x9120#16, 0xE29E#16, 0xE2A1#16, 0xF165#16].all wellFormedWord
      = true := by decide

/-- The decoder rejects an ill-formed word by name. -/
theorem test_decode_rejects :
    decodeWord 0x00FF#16 = .error (.unknownOpcode 0x00FF#16) ∧ decodeWord 0x512F#16 = .error (.unknownOpcode 0x512F#16) ∧
    decodeWord 0x812A#16 = .error (.unknownOpcode 0x812A#16) ∧ decodeWord 0x9121#16 = .error (.unknownOpcode 0x9121#16) ∧
    decodeWord 0xE100#16 = .error (.unknownOpcode 0xE100#16) ∧ decodeWord 0xF175#16 = .error (.unknownOpcode 0xF175#16) := by
  decide

/-- One byte is no instruction. -/
theorem test_decode_needs_two_bytes : decode [0x00#8] = .error .tooFewBytes := by decide

/-! ### Decoding: every constructor, by a word written out from the encoding in its rule -/

/-- R164, R111 to R114: `0000 0000 1110 0000`, `0000 0000 1110 1110`, `0001 nnnn nnnn nnnn`, `0010 ...`, `1011 ...`. -/
theorem test_decode_control :
    decodeWord 0b0000000011100000#16 = .ok .cls ∧ decodeWord 0b0000000011101110#16 = .ok .ret ∧
    decodeWord 0b0001001000000100#16 = .ok (.jp 0x204#12) ∧ decodeWord 0b0010101111001101#16 = .ok (.call 0xBCD#12) ∧
    decodeWord 0b1011001100000001#16 = .ok (.jpV0 0x301#12) := by decide

/-- R121 to R124, R182, R183. -/
theorem test_decode_skips :
    decodeWord 0b0011101000010010#16 = .ok (.seImm 10 0x12#8) ∧ decodeWord 0b0100001100010001#16 = .ok (.sneImm 3 0x11#8) ∧
    decodeWord 0b0101000111110000#16 = .ok (.seReg 1 15) ∧ decodeWord 0b1001111100010000#16 = .ok (.sneReg 15 1) ∧
    decodeWord 0b1110001010011110#16 = .ok (.skp 2) ∧ decodeWord 0b1110001010100001#16 = .ok (.sknp 2) := by decide

/-- R131 to R136. -/
theorem test_decode_loads_and_logic :
    decodeWord 0b0110111111111110#16 = .ok (.ldImm 15 0xFE#8) ∧ decodeWord 0b0111000100000010#16 = .ok (.addImm 1 0x02#8) ∧
    decodeWord 0b1000000100100000#16 = .ok (.ldReg 1 2) ∧ decodeWord 0b1000000100100001#16 = .ok (.orReg 1 2) ∧
    decodeWord 0b1000000100100010#16 = .ok (.andReg 1 2) ∧ decodeWord 0b1000000100100011#16 = .ok (.xorReg 1 2) := by decide

/-- R137 to R142. -/
theorem test_decode_arithmetic :
    decodeWord 0b1000000011110100#16 = .ok (.addReg 0 15) ∧ decodeWord 0b1000000100100101#16 = .ok (.subReg 1 2) ∧
    decodeWord 0b1000000100100110#16 = .ok (.shr 1 2) ∧ decodeWord 0b1000000100100111#16 = .ok (.subnReg 1 2) ∧
    decodeWord 0b1000000100101110#16 = .ok (.shl 1 2) ∧ decodeWord 0b1100000100001111#16 = .ok (.rnd 1 0x0F#8) := by decide

/-- R151 to R156. -/
theorem test_decode_index :
    decodeWord 0b1010001100000001#16 = .ok (.ldI 0x301#12) ∧ decodeWord 0b1111001000011110#16 = .ok (.addI 2) ∧
    decodeWord 0b1111001100101001#16 = .ok (.ldF 3) ∧ decodeWord 0b1111000000110011#16 = .ok (.ldB 0) ∧
    decodeWord 0b1111001001010101#16 = .ok (.storeRegs 2) ∧ decodeWord 0b1111001001100101#16 = .ok (.loadRegs 2) := by decide

/-- R165, R184 to R187. -/
theorem test_decode_display_and_timers :
    decodeWord 0b1101000000010010#16 = .ok (.drw 0 1 2) ∧ decodeWord 0b1111010000000111#16 = .ok (.ldFromDT 4) ∧
    decodeWord 0b1111001100001010#16 = .ok (.ldKey 3) ∧ decodeWord 0b1111000000010101#16 = .ok (.ldDT 0) ∧
    decodeWord 0b1111000100011000#16 = .ok (.ldST 1) := by decide

/-- The encoder writes the same words (R94, R95). -/
theorem test_encode :
    encode (.jp 0x204#12) = 0x1204#16 ∧ encode (.seImm 10 0x12#8) = 0x3A12#16 ∧ encode (.addReg 0 15) = 0x80F4#16 ∧
    encode (.drw 0 1 2) = 0xD012#16 ∧ encode (.skp 2) = 0xE29E#16 ∧ encodeBytes (.ldKey 3) = [0xF3#8, 0x0A#8] := by decide

/-- A table row's word, and the placing of it where the step fetches. -/
theorem test_table_word :
    decodeTableWord 16 0x1204 = some (.jp 0x204#12) ∧ seen State.pc (step (State.reset.withFetchWord 16 0x1204)) = some 0x204#16 := by
  decide

/-- The default font's glyph 0 and glyph F, and the byte after it (R63). -/
theorem test_font :
    State.reset.mem.readBytes 0 5 = [0xF0#8, 0x90#8, 0x90#8, 0x90#8, 0xF0#8] ∧
    State.reset.mem.readBytes 75 6 = [0xF0#8, 0x80#8, 0xF0#8, 0x80#8, 0x80#8, 0#8] := by decide

/-! ### Control transfer (95_test_vectors 2.1) -/

theorem test_ret_pops :
    seen (fun t => (t.pc, t.sp, t.stack[0])) (step (withStack 1 0x206#16 (start 0x00EE#16))) = some (0x206#16, 0, 0x206#16) := by
  decide

theorem test_ret_underflow :
    seen stop (step (start 0x00EE#16)) = some (.halted, ⟨3#2, 0x200#16, 0#16⟩, 0x200#16) := by decide

theorem test_jp : seen State.pc (step (start 0x1FFF#16)) = some 0xFFF#16 := by decide

theorem test_call_last_level :
    seen (fun t => (t.pc, t.sp, t.stack[15], t.stack[14])) (step (withStack 15 0#16 (start 0x2300#16)))
      = some (0x300#16, 16, 0x202#16, 0#16) := by decide

theorem test_call_overflow :
    seen (fun t => (stop t, t.sp, t.stack[15])) (step (withStack 16 0x111#16 (start 0x2300#16)))
      = some ((.halted, ⟨2#2, 0x200#16, 0#16⟩, 0x200#16), 16, 0x111#16) := by decide

theorem test_jpV0_no_mask : seen State.pc (step (withV [(0, 0xFF#8)] (start 0xBFFF#16))) = some 0x10FE#16 := by decide

theorem test_jpV0_uses_V0 : seen State.pc (step (withV [(0, 1#8), (3, 0x55#8)] (start 0xB300#16))) = some 0x301#16 := by decide

/-! ### Skips (95_test_vectors 2.2) -/

theorem test_seImm :
    seen State.pc (step (start 0x3000#16)) = some 0x204#16 ∧
    seen State.pc (step (withV [(0, 1#8)] (start 0x3000#16))) = some 0x202#16 := by decide

theorem test_sneImm :
    seen State.pc (step (withV [(3, 0x10#8)] (start 0x4311#16))) = some 0x204#16 ∧
    seen State.pc (step (withV [(3, 0x10#8)] (start 0x4310#16))) = some 0x202#16 := by decide

theorem test_seReg :
    seen State.pc (step (withV [(1, 7#8), (2, 7#8)] (start 0x5120#16))) = some 0x204#16 ∧
    seen State.pc (step (withV [(1, 7#8), (2, 8#8)] (start 0x5120#16))) = some 0x202#16 := by decide

theorem test_sneReg :
    seen State.pc (step (withV [(1, 7#8), (2, 8#8)] (start 0x9120#16))) = some 0x204#16 ∧
    seen State.pc (step (withV [(1, 7#8), (2, 7#8)] (start 0x9120#16))) = some 0x202#16 := by decide

theorem test_skp :
    seen State.pc (step ((withV [(2, 5#8)] (start 0xE29E#16)).setKey 5 true)) = some 0x204#16 ∧
    seen State.pc (step (withV [(2, 5#8)] (start 0xE29E#16))) = some 0x202#16 := by decide

/-- D15: a code above 15 is not masked to its low nibble. -/
theorem test_skp_code_above_15 :
    seen State.pc (step ((withV [(2, 0x15#8)] (start 0xE29E#16)).setKey 5 true)) = some 0x202#16 := by decide

theorem test_sknp :
    seen State.pc (step (withV [(2, 5#8)] (start 0xE2A1#16))) = some 0x204#16 ∧
    seen State.pc (step ((withV [(2, 5#8)] (start 0xE2A1#16)).setKey 5 true)) = some 0x202#16 := by decide

theorem test_sknp_code_above_15 :
    seen State.pc (step ((withV [(2, 0x15#8)] (start 0xE2A1#16)).setKey 5 true)) = some 0x204#16 := by decide

/-! ### Register load, arithmetic, logic, shifts (95_test_vectors 2.3) -/

theorem test_ldImm : seen (regs 15 0) (step (start 0x6FFF#16)) = some (0xFF#8, 0#8, 0x202#16) := by decide

theorem test_addImm_wraps : seen (regs 1 15) (step (withV [(1, 0xFF#8)] (start 0x7102#16))) = some (1#8, 0#8, 0x202#16) := by decide

theorem test_addImm_modulo_256 : seen (regs 15 0) (step (withV [(15, 0xFF#8)] (start 0x7F01#16))) = some (0#8, 0#8, 0x202#16) := by
  decide

theorem test_ldReg :
    seen (regs 1 2) (step (withV [(1, 0x11#8), (2, 0x33#8)] (start 0x8120#16))) = some (0x33#8, 0x33#8, 0x202#16) := by decide

theorem test_orReg :
    seen (regs 1 15) (step (withV [(1, 0x0F#8), (2, 0xF0#8), (15, 5#8)] (start 0x8121#16))) = some (0xFF#8, 5#8, 0x202#16) := by
  decide

theorem test_andReg :
    seen (regs 1 15) (step (withV [(1, 0x3C#8), (2, 0x0F#8), (15, 5#8)] (start 0x8122#16))) = some (0x0C#8, 5#8, 0x202#16) := by
  decide

theorem test_xorReg :
    seen (regs 1 15) (step (withV [(1, 0xFF#8), (2, 0x0F#8), (15, 5#8)] (start 0x8123#16))) = some (0xF0#8, 5#8, 0x202#16) := by
  decide

theorem test_xorReg_same : seen (regs 1 15) (step (withV [(1, 0xAA#8)] (start 0x8113#16))) = some (0#8, 0#8, 0x202#16) := by decide

/-- The source's S7, by its gloss: the old VF is the addend. -/
theorem test_addReg_carry :
    seen (regs 0 15) (step (withV [(0, 1#8), (15, 0xFF#8)] (start 0x80F4#16))) = some (0#8, 1#8, 0x202#16) := by decide

/-- D7: with `x = 0xF` the sum stays. -/
theorem test_addReg_into_VF :
    seen (regs 15 1) (step (withV [(15, 0xF0#8), (1, 0x20#8)] (start 0x8F14#16))) = some (0x10#8, 0x20#8, 0x202#16) := by decide

theorem test_subReg_borrow :
    seen (regs 1 15) (step (withV [(1, 5#8), (2, 7#8)] (start 0x8125#16))) = some (0xFE#8, 0#8, 0x202#16) := by decide

theorem test_subReg_equal :
    seen (regs 1 15) (step (withV [(1, 7#8), (2, 7#8)] (start 0x8125#16))) = some (0#8, 1#8, 0x202#16) := by decide

theorem test_shr_ignores_y :
    seen (regs 1 15) (step (withV [(1, 0xFF#8)] (start 0x8126#16))) = some (0x7F#8, 1#8, 0x202#16) := by decide

theorem test_shr_into_VF : seen (regs 15 0) (step (withV [(15, 2#8)] (start 0x8F06#16))) = some (1#8, 0#8, 0x202#16) := by decide

theorem test_subnReg :
    seen (regs 1 15) (step (withV [(1, 5#8), (2, 7#8)] (start 0x8127#16))) = some (2#8, 1#8, 0x202#16) ∧
    seen (regs 1 15) (step (withV [(1, 7#8), (2, 5#8)] (start 0x8127#16))) = some (0xFE#8, 0#8, 0x202#16) := by decide

theorem test_shl_flag_is_one : seen (regs 1 15) (step (withV [(1, 0x81#8)] (start 0x810E#16))) = some (2#8, 1#8, 0x202#16) := by
  decide

theorem test_shl_ignores_y :
    seen (regs 1 15) (step (withV [(1, 1#8), (2, 0xFF#8)] (start 0x812E#16))) = some (2#8, 0#8, 0x202#16) := by decide

/-- A mask of 0 gives 0 whatever the draw (R142). -/
theorem test_rnd_zero_mask : seen (regs 1 15) (step (withV [(1, 0x55#8)] (start 0xC100#16))) = some (0#8, 0#8, 0x202#16) := by
  show some (Config.randomByte 0 &&& 0#8, 0#8, 0x202#16) = _
  simp

/-! ### Index register and memory (95_test_vectors 2.4) -/

theorem test_ldI : seen (fun t => (t.i, t.pc)) (step (start 0xA300#16)) = some (0x300#16, 0x202#16) := by decide

theorem test_addI_wraps_without_flag :
    seen (fun t => (t.i, t.readV 15)) (step (withV [(2, 1#8), (15, 9#8)] ((start 0xF21E#16).setI 0xFFFF#16)))
      = some (0#16, 9#8) := by decide

theorem test_addI_past_memory :
    seen (fun t => (t.i, t.readV 15)) (step (withV [(2, 1#8), (15, 9#8)] ((start 0xF21E#16).setI 0x0FFF#16)))
      = some (0x1000#16, 9#8) := by decide

theorem test_ldF : seen State.i (step (withV [(3, 0x0A#8)] (start 0xF329#16))) = some 0x32#16 := by decide

theorem test_ldF_no_mask : seen State.i (step (withV [(3, 0xFF#8)] (start 0xF329#16))) = some 0x4FB#16 := by decide

theorem test_ldB_last_place :
    seen (fun t => (t.mem.readBytes 0xFFD 3, t.pc)) (step (withV [(0, 0xFF#8)] ((start 0xF033#16).setI 0xFFD#16)))
      = some ([2#8, 5#8, 5#8], 0x202#16) := by decide

theorem test_ldB_out_of_bounds :
    seen (fun t => (stop t, t.mem.readBytes 0xFFE 2)) (step (withV [(0, 0xFF#8)] ((start 0xF033#16).setI 0xFFE#16)))
      = some ((.halted, ⟨1#2, 0x200#16, 0x1000#16⟩, 0x200#16), [0#8, 0#8]) := by decide

theorem test_storeRegs :
    seen (fun t => (t.mem.readBytes 0x400 4, t.i, t.pc))
        (step (withV [(0, 1#8), (1, 2#8), (2, 3#8), (3, 4#8)] ((start 0xF255#16).setI 0x400#16)))
      = some ([1#8, 2#8, 3#8, 0#8], 0x400#16, 0x202#16) := by decide

/-- No address wraps: the byte at 0 is the font's and stays. -/
theorem test_storeRegs_no_wrap :
    seen (fun t => (stop t, t.mem.read 0)) (step ((start 0xF155#16).setI 0xFFFF#16))
      = some ((.halted, ⟨1#2, 0x200#16, 0xFFFF#16⟩, 0x200#16), 0xF0#8) := by decide

theorem test_loadRegs :
    seen (fun t => ([t.readV 0, t.readV 1, t.readV 2, t.readV 3], t.i))
        (step (withV [(3, 0x77#8)] (withMem 0x300 [2#8, 3#8, 4#8] ((start 0xF265#16).setI 0x300#16))))
      = some ([2#8, 3#8, 4#8, 0x77#8], 0x300#16) := by decide

theorem test_loadRegs_out_of_bounds :
    seen stop (step ((start 0xF165#16).setI 0xFFF#16)) = some (.halted, ⟨1#2, 0x200#16, 0x1000#16⟩, 0x200#16) := by decide

/-! ### Display (95_test_vectors 2.5) -/

theorem test_cls :
    seen (fun t => (getPixel t.fb 3 5, t.pc)) (step (withPixel 3 5 (start 0x00E0#16))) = some (false, 0x202#16) := by decide

/-- Both axes wrap: lit (62, 31), (63, 31), (62, 0), (5, 0). -/
theorem test_drw_wraps :
    seen (fun t => ([getPixel t.fb 31 62, getPixel t.fb 31 63, getPixel t.fb 0 62, getPixel t.fb 0 5, getPixel t.fb 0 63],
          t.readV 15))
        (step (withV [(0, 62#8), (1, 31#8)] (withMem 0x20C [0xC0#8, 0x81#8] ((start 0xD012#16).setI 0x20C#16))))
      = some ([true, true, true, true, false], 0#8) := by decide

/-- A partial overlap collides; the pixels outside the sprite stay. -/
theorem test_drw_collision :
    seen (fun t => ([getPixel t.fb 0 1, getPixel t.fb 0 2, getPixel t.fb 0 3, getPixel t.fb 0 4, getPixel t.fb 0 5],
          t.readV 15))
        (step (withPixel 0 1 (withPixel 0 2 (withPixel 0 3 (withMem 0x301 [0x3C#8] ((start 0xD011#16).setI 0x301#16))))))
      = some ([true, false, false, true, true], 1#8) := by decide

/-! ### Keypad and timers (95_test_vectors 2.6) -/

theorem test_ldKey_waits : seen (fun t => (t.run, t.pc)) (step (start 0xF30A#16)) = some (.awaitingKey 3, 0x200#16) := by decide

theorem test_ldKey_lowest :
    seen (fun t => (t.run, t.readV 3, t.pc)) (step (((start 0xF30A#16).setKey 9 true).setKey 2 true))
      = some (.running, 2#8, 0x202#16) := by decide

theorem test_keyWait_completes :
    seen (fun t => (t.run, t.readV 3, t.pc)) (step (((start 0xF30A#16).setRun (.awaitingKey 3)).setKey 0xB true))
      = some (.running, 0x0B#8, 0x202#16) := by decide

theorem test_ldFromDT : seen (fun t => (t.readV 4, t.dt)) (step ((start 0xF407#16).setDT 0x2A#8)) = some (0x2A#8, 0x2A#8) := by decide

theorem test_ldDT : seen State.dt (step (withV [(0, 7#8)] (start 0xF015#16))) = some 7#8 := by decide

theorem test_ldST :
    seen (fun t => (t.st, t.tone)) (step (withV [(1, 0x3C#8)] (start 0xF118#16))) = some (0x3C#8, true) := by decide

/-- A tick stops at 0, ends the tone, and acts in every run state. -/
theorem test_tick :
    (((State.reset.setDT 1#8).setST 1#8).tickTimer.dt, ((State.reset.setDT 1#8).setST 1#8).tickTimer.st) = (0#8, 0#8) ∧
    State.reset.tickTimer.dt = 0#8 ∧ ((State.reset.setDT 3#8).setRun .halted).tickTimer.dt = 2#8 ∧
    ((State.reset.setST 1#8).tickTimer.tone = false) := by decide

/-! ### Unknown opcodes and fetch (95_test_vectors 2.7) -/

theorem test_unknown_opcode :
    seen stop (step (start 0x5121#16)) = some (.running, ⟨0#2, 0#16, 0#16⟩, 0x202#16) ∧
    (start 0x5121#16).diagnostic = some (.unknownOpcode 0x200#16 0x5121#16) := by decide

theorem test_fetch_last_address :
    seen (fun t => (t.readV 0, t.pc)) (step (withMem 0xFFE [0x60#8, 1#8] (State.reset.setPc 0xFFE#16)))
      = some (1#8, 0x1000#16) := by decide

theorem test_fetch_beyond_memory :
    seen stop (step (State.reset.setPc 0xFFF#16)) = some (.halted, ⟨1#2, 0xFFF#16, 0x1000#16⟩, 0xFFF#16) ∧
    seen stop (step (State.reset.setPc 0x1000#16)) = some (.halted, ⟨1#2, 0x1000#16, 0x1000#16⟩, 0x1000#16) ∧
    seen stop (step (State.reset.setPc 0x10FE#16)) = some (.halted, ⟨1#2, 0x10FE#16, 0x10FE#16⟩, 0x10FE#16) := by decide

/-! ### The host (R219, R242, R243, 95_test_vectors 2.7) -/

/-- A ROM of 3584 bytes is not truncated, one of 3585 is (S10). -/
theorem test_rom_capacity :
    romTruncated (List.replicate 3584 0#8) = false ∧ romTruncated (List.replicate 3585 0#8) = true := by
  simp only [romTruncated, List.length_replicate]
  decide

/-- The first bytes of scenario S6, loaded at 0x200 directly after reset. -/
theorem test_load : ((State.reset.load [0x60#8, 0x0A#8, 0x61#8]).mem.readBytes 0x1FF 5) = [0#8, 0x60#8, 0x0A#8, 0x61#8, 0#8] := by
  decide

/-! ### Witnesses: for every statement with hypotheses, a state and operands that meet them, at the boundary of each clause -/

theorem witness_DecodedInstructionEncodesToItsWord :
    decodeWord 0x1FFF#16 = .ok (.jp 0xFFF#12) ∧ decodeWord 0xFF65#16 = .ok (.loadRegs 15) := by decide

theorem witness_DecoderAgreesWithMatchAndMask :
    (⟨0x8005#16, 0xF00F#16⟩ : OpRow) ∈ opTable ∧ OpRow.matches ⟨0x8005#16, 0xF00F#16⟩ 0x8FF5#16 = true ∧
    wellFormedWord 0x8008#16 = false := by decide

theorem witness_FetchIsBigEndianAndBounded :
    (State.reset.setPc 0xFFE#16).pc.toNat ≤ 0xFFE ∧ (State.reset.setPc 0xFFF#16).pc.toNat = 0xFFF ∧
    4096 ≤ (State.reset.setPc 0x1000#16).pc.toNat := by decide

/-- A running core at the last address an instruction can stand at, whose word is `6001`. -/
theorem witness_StepRunsTheDecodedInstruction :
    let s := withMem 0xFFE [0x60#8, 1#8] (State.reset.setPc 0xFFE#16)
    s.run = .running ∧ s.pc.toNat ≤ 0xFFE ∧
      decodeWord (s.mem.read s.pc.toNat ++ s.mem.read (s.pc.toNat + 1)) = .ok (.ldImm 0 1#8) := by decide

theorem witness_UnknownOpcodeIsAReportedNoOp :
    let s := State.reset.setPc 0xFFE#16
    s.run = .running ∧ s.pc.toNat ≤ 0xFFE ∧ 0x0000#16 = s.mem.read s.pc.toNat ++ s.mem.read (s.pc.toNat + 1) ∧
      wellFormedWord 0x0000#16 = false := by decide

theorem witness_FetchBeyondMemoryFaults :
    (State.reset.setPc 0xFFF#16).run = .running ∧ 0xFFE < (State.reset.setPc 0xFFF#16).pc.toNat ∧
    (State.reset.setPc 0x1000#16).run = .running ∧ 0xFFE < (State.reset.setPc 0x1000#16).pc.toNat := by decide

theorem witness_HaltedCoreStaysHalted : (State.reset.faultEntry .stackOverflow).run = .halted := by decide

theorem witness_CallPushesTheReturnAddress :
    (withStack 15 0#16 State.reset).sp.val < 16 ∧ (withStack 16 0#16 State.reset).sp = 16 := by decide

theorem witness_ReturnPopsIntoPc :
    0 < (withStack 1 0#16 State.reset).sp.val ∧ (0 : Fin 16).val + 1 = (withStack 1 0#16 State.reset).sp.val ∧
    State.reset.sp = 0 := by decide

/-- The last free level of the stack, and the subroutine `00EE` at the last address an instruction can stand at. -/
theorem witness_CallThenReturnComesBack :
    let s := withStack 15 0#16 (withMem 0xFFE [0x00#8, 0xEE#8] (start 0x2FFE#16))
    s.run = .running ∧ s.sp.val < 16 ∧ s.fetch = .ok (0x2#4 ++ 0xFFE#12) ∧ (0xFFE#12).toNat ≤ 0xFFE ∧
      s.mem.read 0xFFE = 0x00#8 ∧ s.mem.read 0xFFF = 0xEE#8 := by decide

theorem witness_SkipsOnTwoRegisters : (0#4 : BitVec 4) = 0#4 ∧ (1#4 : BitVec 4) ≠ 0#4 := by decide

theorem witness_SkipsOnAKey :
    ((withV [(2, 15#8)] State.reset).readV 2).toNat = (15 : KeyCode).val ∧
    16 ≤ ((withV [(2, 16#8)] State.reset).readV 2).toNat := by decide

/-- The flag clause of the arithmetic statements holds for every destination but VF. -/
theorem witness_AddReportsTheCarry : (14 : RegIdx) ≠ 15 ∧ (0 : RegIdx) ≠ 15 := by decide

theorem witness_SubtractReportsNoBorrow : (14 : RegIdx) ≠ 15 ∧ (0 : RegIdx) ≠ 15 := by decide

theorem witness_ShiftsReportTheLostBit : (14 : RegIdx) ≠ 15 ∧ (0 : RegIdx) ≠ 15 := by decide

theorem witness_DecimalDigitsAreStored :
    (State.reset.setI 0xFFD#16).mem.wf = true ∧ (State.reset.setI 0xFFD#16).i.toNat + 2 < 4096 ∧
    (State.reset.setI 0xFFE#16).mem.wf = true ∧ 4096 ≤ (State.reset.setI 0xFFE#16).i.toNat + 2 := by decide

theorem witness_RegistersAreStored :
    (State.reset.setI 0xFF0#16).mem.wf = true ∧ (State.reset.setI 0xFF0#16).i.toNat + (15 : RegIdx).val < 4096 ∧
    (State.reset.setI 0xFF1#16).mem.wf = true ∧ 4096 ≤ (State.reset.setI 0xFF1#16).i.toNat + (15 : RegIdx).val := by decide

theorem witness_RegistersAreLoaded :
    (State.reset.setI 0xFFF#16).i.toNat + (0 : RegIdx).val < 4096 ∧
    4096 ≤ (State.reset.setI 0x1000#16).i.toNat + (0 : RegIdx).val := by decide

theorem witness_StoredRegistersLoadBack :
    (State.reset.setI 0xFF0#16).mem.wf = true ∧ (State.reset.setI 0xFF0#16).i.toNat + (15 : RegIdx).val < 4096 ∧
    ∃ t, exec (.storeRegs 15) (State.reset.setI 0xFF0#16) = .next t := ⟨by decide, by decide, _, rfl⟩

/-- `F155` at 0x200 with `I = 0x202` writes over the next instruction. -/
theorem witness_StoreIsSeenByTheNextFetch :
    ∃ t, (State.reset.setI 0x202#16).mem.wf = true ∧ exec (.storeRegs 1) (State.reset.setI 0x202#16) = .next t ∧
      t.run ≠ .halted ∧ (1 : RegIdx) ≤ 1 ∧ (1 : RegIdx).val = (0 : RegIdx).val + 1 ∧
      t.pc.toNat = (State.reset.setI 0x202#16).i.toNat + (0 : RegIdx).val :=
  ⟨_, by decide, rfl, by decide, by decide, by decide, by decide⟩

/-- No row with `I` beyond memory; the last row in memory; one row too many. -/
theorem witness_DrawXorsTheSprite :
    ((0 : Fin 16).val = 0 ∧ (State.reset.setI 0x1000#16).i.toNat + (0 : Fin 16).val = 4096) ∧
    (State.reset.setI 0xFF1#16).i.toNat + (15 : Fin 16).val ≤ 4096 ∧
    (0 < (15 : Fin 16).val ∧ 4096 < (State.reset.setI 0xFF2#16).i.toNat + (15 : Fin 16).val) := by decide

/-- A sprite bit over a lit pixel. -/
theorem witness_DrawXorsTheSprite_collision :
    ∃ row col, getPixel (withPixel 31 63 State.reset).fb row col = true ∧ SpriteLights 63 31 [0x80#8] row col :=
  ⟨31, 63, by decide, 0, 0, by decide⟩

/-- A sprite whose lit bits are all over dark pixels: any sprite, on the screen after reset. -/
theorem witness_DrawXorsTheSprite_no_collision :
    ∀ row col, SpriteLights 62 31 [0xC0#8, 0x81#8] row col → getPixel State.reset.fb row col = false := by
  intro row col _
  simp [getPixel, State.reset, State.resetWith]

theorem witness_DrawingTwiceRestoresTheScreen : (List.replicate 15 0xFF#8).length ≤ 15 := by decide

theorem witness_KeyInstructionTakesTheLowestKey :
    let s := State.reset.setKey 15 true
    let u := (State.reset.setKey 15 true).setKey 0 true
    (s.key[(15 : KeyCode)] = true ∧ ∀ j : KeyCode, j < 15 → s.key[j] = false) ∧
    (u.key[(0 : KeyCode)] = true ∧ ∀ j : KeyCode, j < 0 → u.key[j] = false) := by decide

theorem witness_KeyInstructionWaitsWithoutAKey : ∀ k : KeyCode, State.reset.key[k] = false := by decide

theorem witness_AwaitingStepCompletesOnAKey :
    let s := (start 0xF30A#16).setRun (.awaitingKey 3)
    s.run = .awaitingKey 3 ∧ (∀ k : KeyCode, s.key[k] = false) ∧ (s.setKey 15 true).run = .awaitingKey 3 ∧
      (s.setKey 15 true).key[(15 : KeyCode)] = true ∧ ∀ j : KeyCode, j < 15 → (s.setKey 15 true).key[j] = false := by decide

theorem witness_AwaitingIsReexecution :
    ((start 0xF30A#16).setRun (.awaitingKey 3)).Inv ∧ ((start 0xF30A#16).setRun (.awaitingKey 3)).run = .awaitingKey 3 :=
  ⟨⟨by decide, by decide, by decide, fun _ h => (by cases h; decide), fun _ => by decide, fun h => (by cases h)⟩, by decide⟩

theorem witness_ResetRestoresEveryPiece : (0x50 : Nat) ≤ 0x50 := by decide

theorem witness_ResetStateIsARestart : (start 0x1200#16).mem.font = defaultFont := rfl

/-- The last byte of a ROM that is loaded, of a ROM that is too long by one. -/
theorem witness_LoadCopiesTheRom :
    State.reset.mem.wf = true ∧ 3583 < (List.replicate 3585 0xFF#8).length ∧ 3583 < 3584 ∧
    3584 < (List.replicate 3585 0xFF#8).length ∧ ¬ 3584 < (List.replicate 3584 0xFF#8).length := by
  simp only [List.length_replicate]
  decide

theorem witness_HostOperationsKeepTheirDomains :
    15 < 16 ∧ 16 ≤ 16 ∧ (⟨State.reset, false⟩ : Session).fresh = false ∧ (Session.start defaultFont).fresh = true := by decide

/-- Each operation but `reset`, on a session that is fresh: the clause about what ends the fresh moment. -/
theorem witness_HostOperationsKeepTheirDomains_fresh :
    (Op.setKey 15 true ≠ .reset ∧ ∃ d, (Session.start defaultFont).apply (.setKey 15 true) = .next d) ∧
    (Op.tickTimer ≠ .reset ∧ ∃ d, (Session.start defaultFont).apply .tickTimer = .next d) ∧
    (Op.step ≠ .reset ∧ ∃ d, (Session.start defaultFont).apply .step = .next d) ∧
    (Op.load [] ≠ .reset ∧ ∃ d, (Session.start defaultFont).apply (.load []) = .next d) :=
  ⟨⟨by decide, _, rfl⟩, ⟨by decide, _, rfl⟩, ⟨by decide, _, rfl⟩, by decide, _, rfl⟩

theorem witness_OperationsReportToTheHost :
    (Session.start defaultFont).fresh = true ∧ (⟨State.reset, false⟩ : Session).fresh = false := by decide

/-- A step reports the unknown opcode it met (95_test_vectors 2.7: 5121 at 0x200). -/
theorem test_report_of_a_step :
    Session.report .step ⟨start 0x5121#16, true⟩ = some (.unknownOpcode 0x200#16 0x5121#16) := by decide

theorem witness_EveryInterleavingRuns :
    ∀ op ∈ [Op.setKey 15 true, .step, .tickTimer, .reset],
      (∀ rom, op ≠ .load rom) ∧ ∀ code down, op = .setKey code down → code < 16 := by
  simp

/-- One state for each of the five ways. -/
theorem witness_PcAdvancesInOneOfFourWays :
    State.reset.run = .running ∧ (∃ t, exec (.ldI 0#12) State.reset = .next t) ∧ (∃ t, exec (.seImm 0 0#8) State.reset = .next t) ∧
    (∃ t, exec (.jp 0xFFF#12) State.reset = .next t) ∧ (∃ t, exec .ret State.reset = .next t) ∧
    (∃ t, exec (.ldKey 0) State.reset = .next t) :=
  ⟨by decide, ⟨_, rfl⟩, ⟨_, rfl⟩, ⟨_, rfl⟩, ⟨_, rfl⟩, ⟨_, rfl⟩⟩

theorem witness_FaultsArePrecise :
    ∃ t, State.reset.run ≠ .halted ∧ exec .ret State.reset = .next t ∧ t.run = .halted := ⟨_, by decide, rfl, by decide⟩

theorem witness_KeypadIsReadOnlyToTheCore : ∃ t, step (State.reset.setKey 15 true) = .next t := ⟨_, rfl⟩

theorem witness_SpecialRegisterWriters :
    (∃ t, exec (.ldI 0xFFF#12) State.reset = .next t ∧ t.i ≠ State.reset.i) ∧
    (∃ t, exec (.ldDT 0) (withV [(0, 7#8)] State.reset) = .next t ∧ t.dt ≠ State.reset.dt) ∧
    (∃ t, exec (.ldST 0) (withV [(0, 7#8)] State.reset) = .next t ∧ t.st ≠ State.reset.st) ∧
    (∃ t, exec (.call 0#12) State.reset = .next t ∧ t.sp ≠ State.reset.sp) :=
  ⟨⟨_, rfl, by decide⟩, ⟨_, rfl, by decide⟩, ⟨_, rfl, by decide⟩, ⟨_, rfl, by decide⟩⟩

/-- `F033` with `I = 0` writes over the font's first byte; `00E0` turns a lit pixel off. -/
theorem witness_MemoryAndScreenWriters :
    (∃ t, exec (.ldB 0) State.reset = .next t ∧ ∃ a, t.mem.read a ≠ State.reset.mem.read a) ∧
    (∃ t, exec .cls (withPixel 0 0 State.reset) = .next t ∧ t.fb ≠ (withPixel 0 0 State.reset).fb) :=
  ⟨⟨_, rfl, 0, by decide⟩, ⟨_, rfl, fun h => absurd (congrArg (fun fb => getPixel fb 0 0) h) (by decide)⟩⟩

/-- As a flag (`8124` with a carry) and as a plain destination (`6FFF`). -/
theorem witness_FlagRegisterWriters :
    (∃ t, exec (.addReg 1 2) (withV [(1, 0xFF#8), (2, 1#8)] State.reset) = .next t ∧
      t.readV 15 ≠ (withV [(1, 0xFF#8), (2, 1#8)] State.reset).readV 15) ∧
    (∃ t, exec (.ldImm 15 0xFF#8) State.reset = .next t ∧ t.readV 15 ≠ State.reset.readV 15) :=
  ⟨⟨_, rfl, by decide⟩, ⟨_, rfl, by decide⟩⟩

theorem witness_SoundTimerIsNeverRead : ∃ t, step (start 0xF018#16) = .next t := ⟨_, rfl⟩

/-- The self-jump `1200` at 0x200. -/
theorem witness_FinishedProgramStays : (start 0x1200#16).Finished := ⟨by decide, 0x200#12, by decide, by decide⟩

theorem witness_StepKeepsTheInvariant : State.reset.Inv ∧ ∃ t, step State.reset = .next t :=
  ⟨⟨by decide, by decide, by decide, fun _ h => (by cases h), fun _ => by decide, fun h => (by cases h)⟩, _, rfl⟩

/-- Load directly after reset, a key, a step, a tick. -/
theorem witness_EveryExecutionKeepsTheInvariant :
    (Session.start defaultFont).Inv ∧
    ∃ d, Session.run [.load [0xF3#8, 0x0A#8], .setKey 2 true, .step, .tickTimer] (Session.start defaultFont) = .next d :=
  ⟨⟨witness_StepKeepsTheInvariant.1, fun _ => rfl⟩, _, rfl⟩

end Sys2Proof.Tests
end

section
/-!
PROOFS. What the operations report to the host (00_scope R8).
-/
namespace Sys2Proof.Machine

/-- Where `load` runs, it reports the truncation of its ROM (R205, R242). -/
theorem Session.report_load_of_fresh {c : Session} (h : c.fresh = true) (rom : List Byte) :
    c.report (.load rom) = some (.loaded (romTruncated rom)) :=
  if_pos h

/-- Where `load` is refused, it reports nothing (R243). -/
theorem Session.report_load_of_not_fresh {c : Session} (h : c.fresh = false) (rom : List Byte) :
    c.report (.load rom) = none :=
  if_neg (Bool.eq_false_iff.1 h)

/-- Settles O59: only the report of `load` depends on `fresh`; every other clause is the arm of `Session.report` itself. -/
theorem operationsReportToTheHost : Obligations.OperationsReportToTheHost := by
  intro c rom code down
  exact ⟨rfl, fun hf => Session.report_load_of_fresh hf rom, fun hf => Session.report_load_of_not_fresh hf rom, rfl, rfl, rfl⟩

end Sys2Proof.Machine
end

section
/-!
PROOFS. What one executed instruction does to the state: the shapes of effect an instruction can have (30_encoding R90,
10_state R38), and for each part of the state which of them write it. The statements about all instructions, and the invariant,
follow from this and do not look at the 34 meanings again.
-/
namespace Sys2Proof.Machine

/-! ### The classes of instructions -/

/-- The six skips (R121 to R124, R182, R183). -/
inductive IsSkip : Instr → Prop
  | seImm (x kk) : IsSkip (.seImm x kk)
  | sneImm (x kk) : IsSkip (.sneImm x kk)
  | seReg (x y) : IsSkip (.seReg x y)
  | sneReg (x y) : IsSkip (.sneReg x y)
  | skp (x) : IsSkip (.skp x)
  | sknp (x) : IsSkip (.sknp x)

/-- The instructions that write `V[x]` and no flag, other than `Cxkk` and `Fx65` (R130, R184, R185). -/
inductive Assigns (x : RegIdx) : Instr → Prop
  | ldImm (kk) : Assigns x (.ldImm x kk)
  | addImm (kk) : Assigns x (.addImm x kk)
  | ldReg (y) : Assigns x (.ldReg x y)
  | orReg (y) : Assigns x (.orReg x y)
  | andReg (y) : Assigns x (.andReg x y)
  | xorReg (y) : Assigns x (.xorReg x y)
  | ldFromDT : Assigns x (.ldFromDT x)
  | ldKey : Assigns x (.ldKey x)

/-- The instructions that write VF as a flag and then `V[x]` (R137 to R141). -/
inductive AssignsFlagged (x : RegIdx) : Instr → Prop
  | addReg (y) : AssignsFlagged x (.addReg x y)
  | subReg (y) : AssignsFlagged x (.subReg x y)
  | shr (y) : AssignsFlagged x (.shr x y)
  | subnReg (y) : AssignsFlagged x (.subnReg x y)
  | shl (y) : AssignsFlagged x (.shl x y)

/-- The instructions that write `I` (R23). -/
inductive SetsIndex : Instr → Prop
  | ldI (nnn) : SetsIndex (.ldI nnn)
  | addI (x) : SetsIndex (.addI x)
  | ldF (x) : SetsIndex (.ldF x)

/-- The instructions that write memory (R37). -/
inductive Stores : Instr → Prop
  | ldB (x) : Stores (.ldB x)
  | storeRegs (x) : Stores (.storeRegs x)

/-- The instructions that can take a fault (R212). -/
inductive CanFault : Instr → Prop
  | ret : CanFault .ret
  | call (nnn) : CanFault (.call nnn)
  | drw (x y n) : CanFault (.drw x y n)
  | loadRegs (x) : CanFault (.loadRegs x)
  | store {i} (h : Stores i) : CanFault i

/-! ### The effects -/

/-- `Effect s i t`: `t` is a state that executing `i` in `s` may leave. It says which parts of the state are written, and of the
values only what bounds and flags need; the byte a register receives is left open. -/
inductive Effect (s : State) : Instr → State → Prop
  | clears : Effect s .cls (s.setFb clearedFb).advance
  | draws (x y n rows) : Effect s (.drw x y n) (s.drawn x y rows)
  | skips {i} (taken) (hi : IsSkip i) : Effect s i (s.skipIf taken)
  | jumps (nnn) : Effect s (.jp nnn) (s.setPc (addrOf nnn))
  | jumpsV0 (nnn) : Effect s (.jpV0 nnn) (s.setPc (addrOf nnn + zext16 (s.readV 0)))
  | calls (nnn) (h : s.sp.val < 16) : Effect s (.call nnn)
      ((s.setCallStack ⟨s.sp.val + 1, by omega⟩ (s.stack.set s.sp.val (s.pc + 2#16) h)).setPc (addrOf nnn))
  | returns (h : 0 < s.sp.val) : Effect s .ret
      ((s.setCallStack ⟨s.sp.val - 1, by omega⟩ s.stack).setPc (s.stack[s.sp.val - 1]'(by omega)))
  | assigns {i x} (b) (hi : Assigns x i) : Effect s i (s.writeV x b).advance
  | assignsFlagged {i x} (flag b) (hi : AssignsFlagged x i) : Effect s i (s.writeFlagged x flag b).advance
  | assignsRandom (x kk b) : Effect s (.rnd x kk) (s.countDraw.writeV x b).advance
  | setsIndex {i} (a) (hi : SetsIndex i) : Effect s i (s.setI a).advance
  | setsDT (x b) : Effect s (.ldDT x) (s.setDT b).advance
  | setsST (x b) : Effect s (.ldST x) (s.setST b).advance
  | stores {i} (bs) (hi : Stores i) (hb : InBounds s.dataAddr bs.length) :
      Effect s i (s.setMem (s.mem.writeBytes s.dataAddr bs)).advance
  | loads (x) : Effect s (.loadRegs x)
      (s.setRegs (loadBlock s.v 0 (s.mem.readBytes s.dataAddr (x.val + 1)))).advance
  | waits (x) : Effect s (.ldKey x) (s.setRun (.awaitingKey x))
  | faults {i} (f) (hi : CanFault i) : Effect s i (s.faultEntry f)

theorem storeAtI_effect (s : State) {i : Instr} (hi : Stores i) (bs : List Byte) :
    ∃ t, s.storeAtI bs = .next t ∧ Effect s i t := by
  obtain ⟨hb, h⟩ | ⟨-, h⟩ := s.storeAtI_cases bs
  · exact ⟨_, h, .stores bs hi hb⟩
  · exact ⟨_, h, .faults _ (.store hi)⟩

theorem execCall_effect (s : State) (nnn : BitVec 12) : ∃ t, execCall nnn s = .next t ∧ Effect s (.call nnn) t := by
  obtain ⟨hsp, h⟩ | ⟨-, h⟩ := execCall_cases nnn s
  · exact ⟨_, h, .calls nnn hsp⟩
  · exact ⟨_, h, .faults _ (.call nnn)⟩

theorem execRet_effect (s : State) : ∃ t, execRet s = .next t ∧ Effect s .ret t := by
  obtain ⟨hsp, h⟩ | ⟨-, h⟩ := execRet_cases s
  · exact ⟨_, h, .returns hsp⟩
  · exact ⟨_, h, .faults _ .ret⟩

theorem execDrw_effect (s : State) (x y : RegIdx) (n : Fin 16) :
    ∃ t, execDrw x y n s = .next t ∧ Effect s (.drw x y n) t := by
  obtain ⟨-, h⟩ | ⟨-, h⟩ := execDrw_cases x y n s
  · exact ⟨_, h, .draws x y n _⟩
  · exact ⟨_, h, .faults _ (.drw x y n)⟩

theorem execLoadRegs_effect (s : State) (x : RegIdx) : ∃ t, execLoadRegs x s = .next t ∧ Effect s (.loadRegs x) t := by
  obtain ⟨-, h⟩ | ⟨-, h⟩ := execLoadRegs_cases x s
  · exact ⟨_, h, .loads x⟩
  · exact ⟨_, h, .faults _ (.loadRegs x)⟩

theorem execLdKey_effect (s : State) (x : RegIdx) : ∃ t, execLdKey x s = .next t ∧ Effect s (.ldKey x) t := by
  obtain ⟨-, h⟩ | ⟨k, -, h⟩ := execLdKey_cases x s
  · exact ⟨_, h, .waits x⟩
  · exact ⟨_, h, .assigns (keyByte k) .ldKey⟩

/-- Every instruction answers a next state in every state, and that state is one of its effects. -/
theorem exec_next (s : State) : ∀ i : Instr, ∃ t, exec i s = .next t ∧ Effect s i t
  | .cls => ⟨_, rfl, .clears⟩
  | .ret => execRet_effect s
  | .jp nnn => ⟨_, rfl, .jumps nnn⟩
  | .call nnn => execCall_effect s nnn
  | .seImm x kk => ⟨_, rfl, .skips _ (.seImm x kk)⟩
  | .sneImm x kk => ⟨_, rfl, .skips _ (.sneImm x kk)⟩
  | .seReg x y => ⟨_, rfl, .skips _ (.seReg x y)⟩
  | .ldImm _ kk => ⟨_, rfl, .assigns _ (.ldImm kk)⟩
  | .addImm _ kk => ⟨_, rfl, .assigns _ (.addImm kk)⟩
  | .ldReg _ y => ⟨_, rfl, .assigns _ (.ldReg y)⟩
  | .orReg _ y => ⟨_, rfl, .assigns _ (.orReg y)⟩
  | .andReg _ y => ⟨_, rfl, .assigns _ (.andReg y)⟩
  | .xorReg _ y => ⟨_, rfl, .assigns _ (.xorReg y)⟩
  | .addReg _ y => ⟨_, rfl, .assignsFlagged _ _ (.addReg y)⟩
  | .subReg _ y => ⟨_, rfl, .assignsFlagged _ _ (.subReg y)⟩
  | .shr _ y => ⟨_, rfl, .assignsFlagged _ _ (.shr y)⟩
  | .subnReg _ y => ⟨_, rfl, .assignsFlagged _ _ (.subnReg y)⟩
  | .shl _ y => ⟨_, rfl, .assignsFlagged _ _ (.shl y)⟩
  | .sneReg x y => ⟨_, rfl, .skips _ (.sneReg x y)⟩
  | .ldI nnn => ⟨_, rfl, .setsIndex _ (.ldI nnn)⟩
  | .jpV0 nnn => ⟨_, rfl, .jumpsV0 nnn⟩
  | .rnd x kk => ⟨_, rfl, .assignsRandom x kk _⟩
  | .drw x y n => execDrw_effect s x y n
  | .skp x => ⟨_, rfl, .skips _ (.skp x)⟩
  | .sknp x => ⟨_, rfl, .skips _ (.sknp x)⟩
  | .ldFromDT _ => ⟨_, rfl, .assigns _ .ldFromDT⟩
  | .ldKey x => execLdKey_effect s x
  | .ldDT x => ⟨_, rfl, .setsDT x _⟩
  | .ldST x => ⟨_, rfl, .setsST x _⟩
  | .addI x => ⟨_, rfl, .setsIndex _ (.addI x)⟩
  | .ldF x => ⟨_, rfl, .setsIndex _ (.ldF x)⟩
  | .ldB x => storeAtI_effect s (.ldB x) _
  | .storeRegs x => storeAtI_effect s (.storeRegs x) _
  | .loadRegs x => execLoadRegs_effect s x

/-- Inversion of an execution: the state it answers is one of the instruction's effects. -/
theorem effect_of_exec {i : Instr} {s t : State} (h : exec i s = .next t) : Effect s i t := by
  obtain ⟨u, hu, heff⟩ := exec_next s i
  rw [hu] at h
  cases h
  exact heff

end Sys2Proof.Machine
end

section
/-!
PROOFS. The invariant of the core between operations is kept by every step (10_state R26, R33, R34).
-/
namespace Sys2Proof

/-! ### The word of a decoded `Fx0A` -/

/-- A word is its nibble `t`, its nibble `x` and its byte `kk` (R93, R94). -/
theorem encodeXKK_fields (op : Word) : encodeXKK (fieldT op) (fieldX op) (fieldKK op) = op := by
  show (op.extractLsb' 12 4 ++ op.extractLsb' 8 4 ++ op.extractLsb' 0 8 : Word) = op
  rw [BitVec.extractLsb'_append_extractLsb'_eq_extractLsb' (by decide),
    BitVec.extractLsb'_append_extractLsb'_eq_extractLsb' (by decide)]
  simp

theorem decodeGroup0_ne_ldKey (op : Word) (x : RegIdx) : decodeGroup0 op ≠ .ok (.ldKey x) := by
  unfold decodeGroup0
  split
  · simp
  · split <;> simp

theorem decodeGroup8_ne_ldKey (op : Word) (x : RegIdx) : decodeGroup8 op ≠ .ok (.ldKey x) := by
  unfold decodeGroup8
  split <;> simp

theorem decodeGroupE_ne_ldKey (op : Word) (x : RegIdx) : decodeGroupE op ≠ .ok (.ldKey x) := by
  unfold decodeGroupE
  split <;> simp

theorem decodeGroupF_eq_ldKey {op : Word} {x : RegIdx} (h : decodeGroupF op = .ok (.ldKey x)) :
    fieldKK op = 0x0A#8 ∧ fieldX op = x := by
  unfold decodeGroupF at h
  split at h <;> simp_all

/-- Only a word of group F decodes to `Fx0A` (R100). -/
theorem decodeWord_eq_ldKey {op : Word} {x : RegIdx} (h : decodeWord op = .ok (.ldKey x)) :
    fieldT op = 0xF#4 ∧ decodeGroupF op = .ok (.ldKey x) := by
  unfold decodeWord at h
  split at h
  case h_6 | h_10 => split at h <;> cases h
  case h_16 =>
    simp only [imp_false] at *
    exact ⟨by bv_omega, h⟩
  all_goals simp [decodeGroup0_ne_ldKey, decodeGroup8_ne_ldKey, decodeGroupE_ne_ldKey] at h

/-- The word that decodes to `Fx0A` is its encoding. -/
theorem eq_encode_of_decode_ldKey {op : Word} {x : RegIdx} (h : decodeWord op = .ok (.ldKey x)) :
    op = encode (.ldKey x) := by
  obtain ⟨ht, hF⟩ := decodeWord_eq_ldKey h
  obtain ⟨hkk, hx⟩ := decodeGroupF_eq_ldKey hF
  calc op = encodeXKK (fieldT op) (fieldX op) (fieldKK op) := (encodeXKK_fields op).symm
    _ = encode (.ldKey x) := by rw [ht, hx, hkk]; rfl

end Sys2Proof

namespace Sys2Proof.Machine

/-! ### Bounds and canonical form under one effect -/

theorem toNat_addrOf_lt (nnn : BitVec 12) : (addrOf nnn).toNat < 4096 := by
  have := nnn.isLt
  simp only [addrOf, BitVec.toNat_setWidth]
  omega

theorem toNat_addrOf_add_zext16_le (nnn : BitVec 12) (b : Byte) : (addrOf nnn + zext16 b).toNat ≤ 0x10FE := by
  have := nnn.isLt
  have := b.isLt
  simp only [addrOf, zext16, BitVec.toNat_add, BitVec.toNat_setWidth]
  omega

/-- The address after a fetched instruction is within R111's bound on return addresses. -/
theorem toNat_add_two_le {pc : Word} (h : pc.toNat ≤ 0xFFE) : (pc + 2#16).toNat ≤ 0x1000 := by
  bv_omega

/-- The address after a skipped instruction is within R26's bound. -/
theorem toNat_add_four_le {pc : Word} (h : pc.toNat ≤ 0xFFE) : (pc + 4#16).toNat ≤ 0x10FE := by
  bv_omega

theorem State.pc_advance_le {s : State} (h : s.pc.toNat ≤ 0xFFE) : s.advance.pc.toNat ≤ 0x10FE :=
  (toNat_add_two_le h).trans (by decide)

theorem State.pc_skipIf_le {s : State} (h : s.pc.toNat ≤ 0xFFE) (taken : Bool) : (s.skipIf taken).pc.toNat ≤ 0x10FE := by
  cases taken with
  | false => exact State.pc_advance_le h
  | true => exact toNat_add_four_le h

/-- Memory stays canonical: the instructions that write it check their bounds first (R69). -/
theorem Effect.wf {s t : State} {i : Instr} (h : Effect s i t) (hwf : s.mem.wf = true) : t.mem.wf = true := by
  cases h with
  | stores bs _ hb =>
    obtain hnil | hle := hb
    · rw [List.length_eq_zero_iff] at hnil
      subst hnil
      exact hwf
    · exact Memory.wf_writeBytes hwf hle
  | _ => exact hwf

/-- Every way `pc` moves ends within R26's bound, from an instruction that could be fetched. -/
theorem Effect.pc_le {s t : State} {i : Instr} (h : Effect s i t) (hpc : s.pc.toNat ≤ 0xFFE)
    (hstack : ∀ k : Fin 16, (s.stack[k]).toNat ≤ 0x1000) : t.pc.toNat ≤ 0x10FE := by
  cases h with
  | skips taken => exact State.pc_skipIf_le hpc taken
  | jumps nnn | calls nnn => exact (toNat_addrOf_lt nnn).le.trans (by decide)
  | jumpsV0 nnn => exact toNat_addrOf_add_zext16_le nnn _
  | returns hsp => exact (hstack ⟨s.sp.val - 1, by omega⟩).trans (by decide)
  | waits | faults => exact hpc.trans (by decide)
  | _ => exact State.pc_advance_le hpc

/-- Every return address stays at most 0x1000: a call pushes the address after itself (R111, R113). -/
theorem Effect.stack_le {s t : State} {i : Instr} (h : Effect s i t) (hpc : s.pc.toNat ≤ 0xFFE)
    (hstack : ∀ k : Fin 16, (s.stack[k]).toNat ≤ 0x1000) (k : Fin 16) : (t.stack[k]).toNat ≤ 0x1000 := by
  cases h with
  | calls _ hsp =>
    show ((s.stack.set s.sp.val (s.pc + 2#16) hsp)[k.val]).toNat ≤ 0x1000
    rw [Vector.getElem_set]
    split
    · exact toNat_add_two_le hpc
    · exact hstack k
  | _ => exact hstack k

/-- An effect leaves `run` and the fault record alone, or it is the wait of `Fx0A`, or fault entry. -/
theorem Effect.run_cases {s t : State} {i : Instr} (h : Effect s i t) :
    (t.run = s.run ∧ t.fault = s.fault) ∨ (∃ x, i = .ldKey x ∧ t = s.setRun (.awaitingKey x)) ∨
    ∃ f, CanFault i ∧ t = s.faultEntry f := by
  cases h with
  | waits x => exact .inr (.inl ⟨x, rfl, rfl⟩)
  | faults f hi => exact .inr (.inr ⟨f, hi, rfl⟩)
  | _ => exact .inl ⟨rfl, rfl⟩

/-! ### The invariant -/

/-- A running state meets the invariant when its record says no fault and the bounds hold. -/
theorem State.Inv.of_running {s t : State} (h : s.Inv) (hs : s.run ≠ .halted) (ht : t.run = .running)
    (hfault : t.fault = s.fault) (hmem : t.mem.wf = true) (hpc : t.pc.toNat ≤ 0x10FE)
    (hstack : ∀ k : Fin 16, (t.stack[k]).toNat ≤ 0x1000) : t.Inv where
  memory := hmem
  pcBound := hpc
  stackBound := hstack
  awaiting r hr := by rw [ht] at hr; cases hr
  noFault _ := hfault.trans (h.noFault hs)
  someFault hr := by rw [ht] at hr; cases hr

theorem faultCode_ne_zero (f : Fault) : faultCode f ≠ 0#2 := by
  cases f <;> simp [faultCode]

/-- Fault entry keeps the invariant: it writes a record with a cause code and halts (R206, R207). -/
theorem State.Inv.faultEntry {s : State} (h : s.Inv) (f : Fault) : (s.faultEntry f).Inv where
  memory := h.memory
  pcBound := h.pcBound
  stackBound := h.stackBound
  awaiting r hr := by cases hr
  noFault hr := absurd rfl hr
  someFault _ := faultCode_ne_zero f

/-- A core that begins to wait at its `Fx0A` meets the invariant (R184). -/
theorem State.Inv.await {s : State} (h : s.Inv) (hs : s.run ≠ .halted) {x : RegIdx}
    (hfetch : s.fetch = .ok (encode (.ldKey x))) : (s.setRun (.awaitingKey x)).Inv where
  memory := h.memory
  pcBound := h.pcBound
  stackBound := h.stackBound
  awaiting r hr := by cases hr; exact hfetch
  noFault _ := h.noFault hs
  someFault hr := by cases hr

/-- Executing the instruction at `pc` keeps the invariant. -/
theorem State.Inv.exec {s t : State} {op : Word} {i : Instr} (h : s.Inv) (hrun : s.run = .running)
    (hfetch : s.fetch = .ok op) (hdecode : decodeWord op = .ok i) (hexec : exec i s = .next t) : t.Inv := by
  have hs : s.run ≠ .halted := by simp [hrun]
  have hpc := State.le_of_fetch_ok hfetch
  have heff := effect_of_exec hexec
  obtain ⟨hr, hf⟩ | ⟨x, rfl, rfl⟩ | ⟨f, -, rfl⟩ := heff.run_cases
  · exact h.of_running hs (hr.trans hrun) hf (heff.wf h.memory) (heff.pc_le hpc h.stackBound)
      (heff.stack_le hpc h.stackBound)
  · exact h.await hs (eq_encode_of_decode_ldKey hdecode ▸ hfetch)
  · exact h.faultEntry f

/-- The key-wait step keeps the invariant: the waiting `Fx0A` lies within memory, so `pc + 2` is in bounds (R184). -/
theorem State.Inv.keyWaitStep {s t : State} {r : RegIdx} (h : s.Inv) (hrun : s.run = .awaitingKey r)
    (hstep : keyWaitStep r s = .next t) : t.Inv := by
  have hpc := State.le_of_fetch_ok (h.awaiting r hrun)
  obtain ⟨-, hk⟩ | ⟨k, -, hk⟩ := keyWaitStep_cases r s
  · rw [hk] at hstep
    cases hstep
    exact h
  · rw [hk] at hstep
    cases hstep
    exact h.of_running (by simp [hrun]) rfl rfl h.memory (State.pc_advance_le hpc) h.stackBound

/-- An unknown opcode keeps the invariant (R97). -/
theorem State.Inv.unknownStep {s : State} {op : Word} (h : s.Inv) (hrun : s.run = .running) (hfetch : s.fetch = .ok op) :
    s.unknownStep.Inv :=
  h.of_running (by simp [hrun]) hrun rfl h.memory (State.pc_advance_le (State.le_of_fetch_ok hfetch)) h.stackBound

/-- Settles O57, along everything a step can do. -/
theorem stepKeepsTheInvariant : Obligations.StepKeepsTheInvariant := by
  intro s t h hstep
  obtain ⟨-, hs⟩ | ⟨r, hrun, hs⟩ | ⟨-, -, hs⟩ | ⟨op, i, hrun, -, hfetch, hdecode, hs⟩ |
    ⟨op, e, hrun, -, hfetch, -, hs⟩ := step_cases s <;> rw [hs] at hstep
  · cases hstep
    exact h
  · exact h.keyWaitStep hrun hstep
  · cases hstep
    exact h.faultEntry _
  · exact h.exec hrun hfetch hdecode hstep
  · cases hstep
    exact h.unknownStep hrun hfetch

end Sys2Proof.Machine
end

section
/-!
PROOFS. The rules about all instructions: how `pc` advances (10_state R25), and which instructions write which part of the
state (R21 to R29, R37, R38).
-/
namespace Sys2Proof.Machine

/-! ### The classes in the words of the statements -/

theorem IsSkip.eq_or {i : Instr} (h : IsSkip i) : ∃ x y kk,
    i = .seImm x kk ∨ i = .sneImm x kk ∨ i = .seReg x y ∨ i = .sneReg x y ∨ i = .skp x ∨ i = .sknp x := by
  cases h <;> simp

theorem SetsIndex.eq_or {i : Instr} (h : SetsIndex i) : ∃ x nnn, i = .ldI nnn ∨ i = .addI x ∨ i = .ldF x := by
  cases h <;> simp

theorem Stores.eq_or {i : Instr} (h : Stores i) : ∃ x, i = .ldB x ∨ i = .storeRegs x := by
  cases h <;> simp

/-- The instruction writes VF as a flag (R21). -/
def WritesFlag (i : Instr) : Prop :=
  ∃ x y n, i = .addReg x y ∨ i = .subReg x y ∨ i = .subnReg x y ∨ i = .shr x y ∨ i = .shl x y ∨ i = .drw x y n

/-- The instruction names VF as its destination (R22). -/
def NamesVF (i : Instr) : Prop :=
  ∃ y kk, i = .addReg 15 y ∨ i = .subReg 15 y ∨ i = .subnReg 15 y ∨ i = .shr 15 y ∨ i = .shl 15 y ∨ i = .ldImm 15 kk ∨
    i = .addImm 15 kk ∨ i = .ldReg 15 y ∨ i = .orReg 15 y ∨ i = .andReg 15 y ∨ i = .xorReg 15 y ∨ i = .rnd 15 kk ∨
    i = .ldFromDT 15 ∨ i = .ldKey 15 ∨ i = .loadRegs 15

theorem AssignsFlagged.writesFlag {x : RegIdx} {i : Instr} (h : AssignsFlagged x i) : WritesFlag i := by
  cases h <;> simp [WritesFlag]

theorem AssignsFlagged.namesVF {i : Instr} (h : AssignsFlagged 15 i) : NamesVF i := by
  cases h <;> simp [NamesVF]

theorem Assigns.namesVF {i : Instr} (h : Assigns 15 i) : NamesVF i := by
  cases h <;> simp [NamesVF]

/-! ### The program counter -/

/-- Settles O48, by the instruction's effect. -/
theorem pcAdvancesInOneOfFourWays : Obligations.PcAdvancesInOneOfFourWays := by
  intro i s t hrun hexec
  have heff := effect_of_exec hexec
  cases heff with
  | skips taken hi =>
    cases taken with
    | false => exact .inl ⟨hrun, rfl⟩
    | true => exact .inr (.inl ⟨hrun, rfl, hi.eq_or⟩)
  | jumps nnn | jumpsV0 nnn | calls nnn => exact .inr (.inr (.inl ⟨hrun, nnn, by simp⟩))
  | returns => exact .inr (.inr (.inl ⟨hrun, 0, by simp⟩))
  | waits x => exact .inr (.inr (.inr (.inr ⟨x, rfl, rfl, rfl⟩)))
  | faults => exact .inr (.inr (.inr (.inl ⟨rfl, rfl⟩)))
  | _ => exact .inl ⟨hrun, rfl⟩

/-! ### Writers of each part -/

theorem Effect.i_eq_or {s t : State} {i : Instr} (h : Effect s i t) : t.i = s.i ∨ SetsIndex i := by
  cases h with
  | setsIndex _ hi => exact .inr hi
  | _ => exact .inl rfl

theorem Effect.dt_eq_or {s t : State} {i : Instr} (h : Effect s i t) : t.dt = s.dt ∨ ∃ x, i = .ldDT x := by
  cases h with
  | setsDT x => exact .inr ⟨x, rfl⟩
  | _ => exact .inl rfl

theorem Effect.st_eq_or {s t : State} {i : Instr} (h : Effect s i t) : t.st = s.st ∨ ∃ x, i = .ldST x := by
  cases h with
  | setsST x => exact .inr ⟨x, rfl⟩
  | _ => exact .inl rfl

theorem Effect.callStack_eq_or {s t : State} {i : Instr} (h : Effect s i t) :
    (t.sp = s.sp ∧ t.stack = s.stack) ∨ ∃ nnn, i = .call nnn ∨ i = .ret := by
  cases h with
  | calls nnn => exact .inr ⟨nnn, .inl rfl⟩
  | returns => exact .inr ⟨0, .inr rfl⟩
  | _ => exact .inl ⟨rfl, rfl⟩

theorem Effect.mem_eq_or {s t : State} {i : Instr} (h : Effect s i t) : t.mem = s.mem ∨ Stores i := by
  cases h with
  | stores _ hi => exact .inr hi
  | _ => exact .inl rfl

theorem Effect.fb_eq_or {s t : State} {i : Instr} (h : Effect s i t) :
    t.fb = s.fb ∨ ∃ x y n, i = .cls ∨ i = .drw x y n := by
  cases h with
  | clears => exact .inr ⟨0, 0, 0, .inl rfl⟩
  | draws x y n => exact .inr ⟨x, y, n, .inr rfl⟩
  | _ => exact .inl rfl

/-- Settles O51: each of the parts has its own writers among the effects. -/
theorem specialRegisterWriters : Obligations.SpecialRegisterWriters := by
  intro i s t hexec
  have heff := effect_of_exec hexec
  refine ⟨fun h => (heff.i_eq_or.resolve_left h).eq_or, heff.dt_eq_or.resolve_left, heff.st_eq_or.resolve_left, fun h => ?_⟩
  refine heff.callStack_eq_or.resolve_left fun ⟨hsp, hstack⟩ => ?_
  exact h.elim (absurd hsp) (absurd hstack)

/-- Settles O52: an effect that is no store leaves the whole memory as it was. -/
theorem memoryAndScreenWriters : Obligations.MemoryAndScreenWriters := by
  intro i s t hexec
  have heff := effect_of_exec hexec
  refine ⟨fun ⟨a, ha⟩ => ?_, heff.fb_eq_or.resolve_left⟩
  exact (heff.mem_eq_or.resolve_left fun hmem => ha (by rw [hmem])).eq_or

/-! ### The flag register -/

theorem State.readV_drawn_vf (s : State) (x y : RegIdx) (rows : List Byte) :
    (s.drawn x y rows).readV vf = 0#8 ∨ (s.drawn x y rows).readV vf = 1#8 := by
  simp only [State.drawn, State.readV_advance, State.readV_writeV_self]
  exact flagByte_eq _

/-- A register other than the destination keeps its value, so VF changes only as a flag or where it is the destination. -/
theorem Effect.vf_cases {s t : State} {i : Instr} (h : Effect s i t) :
    t.readV 15 = s.readV 15 ∨ (WritesFlag i ∧ (t.readV 15 = 0#8 ∨ t.readV 15 = 1#8)) ∨ NamesVF i := by
  cases h with
  | draws x y n rows => exact .inr (.inl ⟨⟨x, y, n, by simp⟩, s.readV_drawn_vf x y rows⟩)
  | @assigns _ x b hi =>
    by_cases hx : 15 = x
    · subst hx
      exact .inr (.inr hi.namesVF)
    · exact .inl (s.readV_writeV_of_ne b hx)
  | @assignsFlagged _ x flag b hi =>
    by_cases hx : 15 = x
    · subst hx
      exact .inr (.inr hi.namesVF)
    · have hvf : (s.writeFlagged x flag b).readV 15 = flagByte flag := by
        rw [State.readV_writeFlagged, if_neg hx, if_pos (show 15 = vf from rfl)]
      refine .inr (.inl ⟨hi.writesFlag, ?_⟩)
      rw [State.readV_advance, hvf]
      exact flagByte_eq flag
  | assignsRandom x kk b =>
    by_cases hx : 15 = x
    · subst hx
      exact .inr (.inr ⟨0, kk, by simp⟩)
    · exact .inl (s.countDraw.readV_writeV_of_ne b hx)
  | loads x =>
    by_cases hx : 15 ≤ x
    · obtain rfl : x = 15 := le_antisymm (Fin.le_last x) hx
      exact .inr (.inr ⟨0, 0, by simp⟩)
    · exact .inl ((s.readV_loadBlock x 15 s.dataAddr).trans (if_neg hx))
  | _ => exact .inl rfl

/-- Settles O53, by the effects that write a register. -/
theorem flagRegisterWriters : Obligations.FlagRegisterWriters := by
  intro i s t hexec hne
  exact (effect_of_exec hexec).vf_cases.resolve_left hne

/-! ### The sound timer -/

/-- Both answers are next states, and they differ at most in ST. -/
def AgreeButST (a a' : Answer) : Prop := ∃ t c, a = .next t ∧ a' = .next (t.setST c)

theorem State.push_setST (s : State) (b : Byte) (w : Word) : (s.setST b).push w = (s.push w).map (·.setST b) := by
  by_cases h : s.sp.val < 16
  · rw [s.push_of_lt w h, (s.setST b).push_of_lt w h]
    rfl
  · have hfull : s.sp = 16 := by omega
    rw [s.push_full w hfull, (s.setST b).push_full w hfull]
    rfl

theorem State.pop_setST (s : State) (b : Byte) : (s.setST b).pop = s.pop.map fun p => (p.1, p.2.setST b) := by
  by_cases h : 0 < s.sp.val
  · rw [s.pop_of_pos h, (s.setST b).pop_of_pos h]
    rfl
  · have hempty : s.sp = 0 := by omega
    rw [s.pop_empty hempty, (s.setST b).pop_empty hempty]
    rfl

theorem State.memWrite_setST (s : State) (b : Byte) (a : Nat) (bs : List Byte) :
    (s.setST b).memWrite a bs = (s.memWrite a bs).map (·.setST b) := by
  unfold State.memWrite
  cases boundsFault a bs.length <;> rfl

theorem State.storeAtI_setST (s : State) (b : Byte) (bs : List Byte) :
    AgreeButST (s.storeAtI bs) ((s.setST b).storeAtI bs) := by
  simp only [State.storeAtI, State.dataAddr, State.i_setST, State.memWrite_setST]
  cases s.memWrite s.i.toNat bs <;> exact ⟨_, b, rfl, rfl⟩

theorem execCall_setST (nnn : BitVec 12) (s : State) (b : Byte) :
    AgreeButST (execCall nnn s) (execCall nnn (s.setST b)) := by
  simp only [execCall, State.pc_setST, State.push_setST]
  cases s.push (s.pc + 2#16) <;> exact ⟨_, b, rfl, rfl⟩

theorem execRet_setST (s : State) (b : Byte) : AgreeButST (execRet s) (execRet (s.setST b)) := by
  simp only [execRet, State.pop_setST]
  cases s.pop <;> exact ⟨_, b, rfl, rfl⟩

theorem execDrw_setST (x y : RegIdx) (n : Fin 16) (s : State) (b : Byte) :
    AgreeButST (execDrw x y n s) (execDrw x y n (s.setST b)) := by
  have hread : (s.setST b).memRead (s.setST b).dataAddr n.val = s.memRead s.dataAddr n.val := rfl
  unfold execDrw
  rw [hread]
  cases s.memRead s.dataAddr n.val <;> exact ⟨_, b, rfl, rfl⟩

theorem execLoadRegs_setST (x : RegIdx) (s : State) (b : Byte) :
    AgreeButST (execLoadRegs x s) (execLoadRegs x (s.setST b)) := by
  have hread : (s.setST b).memRead (s.setST b).dataAddr (x.val + 1) = s.memRead s.dataAddr (x.val + 1) := rfl
  unfold execLoadRegs
  rw [hread]
  cases s.memRead s.dataAddr (x.val + 1) <;> exact ⟨_, b, rfl, rfl⟩

theorem State.anyPressed_setST (s : State) (b : Byte) : (s.setST b).anyPressed = s.anyPressed := rfl

theorem execLdKey_setST (x : RegIdx) (s : State) (b : Byte) :
    AgreeButST (execLdKey x s) (execLdKey x (s.setST b)) := by
  unfold execLdKey
  rw [State.anyPressed_setST]
  cases s.anyPressed <;> exact ⟨_, b, rfl, rfl⟩

theorem keyWaitStep_setST (r : RegIdx) (s : State) (b : Byte) :
    AgreeButST (keyWaitStep r s) (keyWaitStep r (s.setST b)) := by
  unfold keyWaitStep
  rw [State.anyPressed_setST]
  cases s.anyPressed <;> exact ⟨_, b, rfl, rfl⟩

/-- No instruction reads ST: its other writes are the same values whatever ST holds, and `Fx18` writes it from a register. -/
theorem exec_setST (i : Instr) (s : State) (b : Byte) : AgreeButST (exec i s) (exec i (s.setST b)) := by
  cases i with
  | ret => exact execRet_setST s b
  | call nnn => exact execCall_setST nnn s b
  | drw x y n => exact execDrw_setST x y n s b
  | ldKey x => exact execLdKey_setST x s b
  | ldB x => exact s.storeAtI_setST b _
  | storeRegs x => exact s.storeAtI_setST b _
  | loadRegs x => exact execLoadRegs_setST x s b
  | ldST x => exact ⟨_, s.readV x, rfl, rfl⟩
  | _ => exact ⟨_, b, rfl, rfl⟩

theorem step_setST (s : State) (b : Byte) : AgreeButST (step s) (step (s.setST b)) := by
  obtain ⟨hrun, hs⟩ | ⟨r, hrun, hs⟩ | ⟨hrun, hpc, hs⟩ | ⟨op, i, hrun, -, hfetch, hdecode, hs⟩ |
    ⟨op, e, hrun, -, hfetch, hdecode, hs⟩ := step_cases s <;> rw [hs]
  · exact ⟨s, b, rfl, step_of_halted (s := s.setST b) hrun⟩
  · rw [step_of_awaitingKey (s := s.setST b) hrun]
    exact keyWaitStep_setST r s b
  · exact ⟨_, b, rfl, step_of_fetch_error (s := s.setST b) hrun ((s.setST b).fetch_of_gt hpc)⟩
  · rw [step_of_decode_ok (s := s.setST b) hrun hfetch hdecode]
    exact exec_setST i s b
  · exact ⟨_, b, rfl, step_of_decode_error (s := s.setST b) hrun hfetch hdecode⟩

/-- Settles O54: stepping commutes with a change of ST, up to ST. -/
theorem soundTimerIsNeverRead : Obligations.SoundTimerIsNeverRead := by
  intro s t b hstep
  obtain ⟨u, c, hs, hb⟩ := step_setST s b
  rw [hs] at hstep
  cases hstep
  exact ⟨c, hb⟩

end Sys2Proof.Machine
end

section
/-!
PROOFS. A store into the instruction stream (20_memory R76): what `Fx55` leaves in memory is what the next fetch reads.
-/
namespace Sys2Proof.Machine

/-- An `Fx55` that does not end halted had its whole block within memory, wrote it at `I` and advanced (R69, R155). -/
theorem exec_storeRegs_of_not_halted {x : RegIdx} {s t : State} (hexec : exec (.storeRegs x) s = .next t)
    (hrun : t.run ≠ .halted) :
    s.dataAddr + (x.val + 1) ≤ 4096 ∧ t = (s.setMem (s.mem.writeBytes s.dataAddr (s.regBlock x))).advance := by
  obtain ⟨hb, h⟩ | ⟨-, h⟩ := s.storeAtI_cases (s.regBlock x)
  · rw [s.length_regBlock] at hb
    exact ⟨hb.resolve_left (Nat.succ_ne_zero _), Host.Outcome.next.inj (hexec.symm.trans h)⟩
  · obtain rfl := Host.Outcome.next.inj (hexec.symm.trans h)
    exact absurd rfl hrun

/-- A register block written within memory holds `V[r]` at its `r`-th address. -/
theorem State.read_writeBytes_regBlock {s : State} {x r : RegIdx} {a : Nat} (hwf : s.mem.wf = true) (hr : r ≤ x)
    (ha : a + (x.val + 1) ≤ 4096) : (s.mem.writeBytes a (s.regBlock x)).read (a + r.val) = s.readV r := by
  have hlen : r.val < (s.regBlock x).length := by
    rw [s.length_regBlock]
    exact Nat.lt_succ_of_le hr
  rw [Memory.read_writeBytes_inside hwf hlen (by rwa [s.length_regBlock]), s.getElem_regBlock]

/-- Settles O32: both bytes at the new `pc` lie in the block the store wrote, so they lie in memory and read as the registers. -/
theorem storeIsSeenByTheNextFetch : Obligations.StoreIsSeenByTheNextFetch := by
  intro x k j s t hwf hexec hrun hjx hjk hpc
  obtain ⟨hle, rfl⟩ := exec_storeRegs_of_not_halted hexec hrun
  have hjval : j.val ≤ x.val := hjx
  have hkx : k ≤ x := Fin.le_def.2 (by omega)
  have hfst := State.read_writeBytes_regBlock hwf hkx hle
  have hsnd := State.read_writeBytes_regBlock hwf hjx hle
  rw [hjk, ← Nat.add_assoc] at hsnd
  change _ = s.dataAddr + k.val at hpc
  rw [State.fetch_of_le _ (by omega), hpc, State.mem_advance, State.mem_setMem, hfst, hsnd]
  rfl

end Sys2Proof.Machine
end

section
/-!
PROOFS. Decoder and encoder are inverse to each other, and the cascade is the match and mask table (30_encoding R94 to R96,
R100).
-/
namespace Sys2Proof

/-! ### From an instruction to its word and back -/

/-- What Laws/PerInstr.lean proves constructor by constructor, for every instruction. -/
theorem coding : ∀ i : Instr, Laws.Coding.Statement i
  | .cls => Laws.Coding.cls
  | .ret => Laws.Coding.ret
  | .jp nnn => Laws.Coding.jp nnn
  | .call nnn => Laws.Coding.call nnn
  | .seImm x kk => Laws.Coding.seImm x kk
  | .sneImm x kk => Laws.Coding.sneImm x kk
  | .seReg x y => Laws.Coding.seReg x y
  | .ldImm x kk => Laws.Coding.ldImm x kk
  | .addImm x kk => Laws.Coding.addImm x kk
  | .ldReg x y => Laws.Coding.ldReg x y
  | .orReg x y => Laws.Coding.orReg x y
  | .andReg x y => Laws.Coding.andReg x y
  | .xorReg x y => Laws.Coding.xorReg x y
  | .addReg x y => Laws.Coding.addReg x y
  | .subReg x y => Laws.Coding.subReg x y
  | .shr x y => Laws.Coding.shr x y
  | .subnReg x y => Laws.Coding.subnReg x y
  | .shl x y => Laws.Coding.shl x y
  | .sneReg x y => Laws.Coding.sneReg x y
  | .ldI nnn => Laws.Coding.ldI nnn
  | .jpV0 nnn => Laws.Coding.jpV0 nnn
  | .rnd x kk => Laws.Coding.rnd x kk
  | .drw x y n => Laws.Coding.drw x y n
  | .skp x => Laws.Coding.skp x
  | .sknp x => Laws.Coding.sknp x
  | .ldFromDT x => Laws.Coding.ldFromDT x
  | .ldKey x => Laws.Coding.ldKey x
  | .ldDT x => Laws.Coding.ldDT x
  | .ldST x => Laws.Coding.ldST x
  | .addI x => Laws.Coding.addI x
  | .ldF x => Laws.Coding.ldF x
  | .ldB x => Laws.Coding.ldB x
  | .storeRegs x => Laws.Coding.storeRegs x
  | .loadRegs x => Laws.Coding.loadRegs x

@[simp] theorem decodeWord_encode (i : Instr) : decodeWord (encode i) = .ok i := by
  obtain ⟨-, -, hdecode⟩ := coding i
  exact hdecode

/-- The word of an instruction is well formed: it matches the instruction's own row (R95). -/
@[simp] theorem wellFormedWord_encode (i : Instr) : wellFormedWord (encode i) = true := by
  obtain ⟨hmem, hmatch, -⟩ := coding i
  exact List.any_eq_true.2 ⟨i.row, hmem, hmatch⟩

/-- Bytes are decoded as the word they compose, and the bytes after the first two are left (R64, R92). -/
theorem decode_of_decodeWord {hi lo : Byte} {i : Instr} (h : decodeWord (bigEndian hi lo) = .ok i) (rest : List Byte) :
    decode (hi :: lo :: rest) = .ok (i, rest) := by
  simp [decode, h]

theorem decode_encodeBytes_append (i : Instr) (rest : List Byte) : decode (encodeBytes i ++ rest) = .ok (i, rest) :=
  decode_of_decodeWord (by rw [bigEndian_high_low, decodeWord_encode]) rest

/-- Settles O2: the round trip on words, and bytes that compose to the word they were cut from. -/
theorem encodeThenDecodeReturnsTheInstruction : Obligations.EncodeThenDecodeReturnsTheInstruction :=
  fun i => ⟨decodeWord_encode i, decode_encodeBytes_append i⟩

/-! ### A word is made of its fields -/

theorem encodeNNN_fields (op : Word) : encodeNNN (fieldT op) (fieldNNN op) = op := by
  show (op.extractLsb' 12 4 ++ op.extractLsb' 0 12 : Word) = op
  rw [BitVec.extractLsb'_append_extractLsb'_eq_extractLsb' (by decide)]
  simp

theorem encodeXYN_fields (op : Word) : encodeXYN (fieldT op) (fieldX op) (fieldY op) (fieldLow op) = op := by
  show (op.extractLsb' 12 4 ++ op.extractLsb' 8 4 ++ op.extractLsb' 4 4 ++ op.extractLsb' 0 4 : Word) = op
  rw [BitVec.extractLsb'_append_extractLsb'_eq_extractLsb' (by decide),
    BitVec.extractLsb'_append_extractLsb'_eq_extractLsb' (by decide),
    BitVec.extractLsb'_append_extractLsb'_eq_extractLsb' (by decide)]
  simp

theorem encodeNNN_of_field {op : Word} {t : BitVec 4} (ht : fieldT op = t) : encodeNNN t (fieldNNN op) = op := by
  rw [← ht, encodeNNN_fields]

theorem encodeXKK_of_fields {op : Word} {t : BitVec 4} {kk : Byte} (ht : fieldT op = t) (hkk : fieldKK op = kk) :
    encodeXKK t (fieldX op) kk = op := by
  rw [← ht, ← hkk, encodeXKK_fields]

theorem encodeXYN_of_fields {op : Word} {t low : BitVec 4} (ht : fieldT op = t) (hlow : fieldLow op = low) :
    encodeXYN t (fieldX op) (fieldY op) low = op := by
  rw [← ht, ← hlow, encodeXYN_fields]

/-! ### From a word to an instruction -/

/-- What the decoder may answer on the word `op`: an instruction whose word is `op`, or that `op` is an unknown opcode. -/
inductive ReadsBack (op : Word) : Except Reject Instr → Prop
  | ok {i : Instr} (h : encode i = op) : ReadsBack op (.ok i)
  | unknown : ReadsBack op (.error (.unknownOpcode op))

theorem decodeGroup0_readsBack (op : Word) : ReadsBack op (decodeGroup0 op) := by
  unfold decodeGroup0
  split
  · next h => exact .ok h.symm
  · split
    · next h => exact .ok h.symm
    · exact .unknown

theorem decodeGroup8_readsBack {op : Word} (ht : fieldT op = 0x8#4) : ReadsBack op (decodeGroup8 op) := by
  unfold decodeGroup8
  split
  case h_10 => exact .unknown
  all_goals exact .ok (encodeXYN_of_fields ht ‹_›)

theorem decodeGroupE_readsBack {op : Word} (ht : fieldT op = 0xE#4) : ReadsBack op (decodeGroupE op) := by
  unfold decodeGroupE
  split
  case h_3 => exact .unknown
  all_goals exact .ok (encodeXKK_of_fields ht ‹_›)

theorem decodeGroupF_readsBack {op : Word} (ht : fieldT op = 0xF#4) : ReadsBack op (decodeGroupF op) := by
  unfold decodeGroupF
  split
  case h_10 => exact .unknown
  all_goals exact .ok (encodeXKK_of_fields ht ‹_›)

/-- Everything the decoder can answer, along the cascade of R100. -/
theorem decodeWord_readsBack (op : Word) : ReadsBack op (decodeWord op) := by
  unfold decodeWord
  split
  case h_1 => exact decodeGroup0_readsBack op
  case h_2 ht | h_3 ht | h_11 ht | h_12 ht => exact .ok (encodeNNN_of_field ht)
  case h_4 ht | h_5 ht | h_7 ht | h_8 ht | h_13 ht => exact .ok (encodeXKK_of_fields ht rfl)
  case h_6 ht | h_10 ht =>
    split
    · next hlow => exact .ok (encodeXYN_of_fields ht hlow)
    · exact .unknown
  case h_9 ht => exact decodeGroup8_readsBack ht
  case h_14 ht => exact .ok (encodeXYN_of_fields ht rfl)
  case h_15 ht => exact decodeGroupE_readsBack ht
  case h_16 =>
    simp only [imp_false] at *
    exact decodeGroupF_readsBack (by bv_omega)

theorem encode_of_decodeWord {op : Word} {i : Instr} (h : decodeWord op = .ok i) : encode i = op := by
  have hread := decodeWord_readsBack op
  rw [h] at hread
  obtain ⟨hi⟩ := hread
  exact hi

/-- Settles O3: every answer of the cascade keeps all the fields of the word. -/
theorem decodedInstructionEncodesToItsWord : Obligations.DecodedInstructionEncodesToItsWord :=
  fun _ _ => encode_of_decodeWord

/-! ### The match and mask table -/

theorem OpRow.matches_iff {r : OpRow} {op : Word} : r.matches op = true ↔ op &&& r.mask = r.code := beq_iff_eq

/-- The mask `F000` tests the field `t` alone. -/
theorem fieldT_of_matches {op : Word} {t : BitVec 4} (h : OpRow.matches ⟨encodeNNN t 0#12, 0xF000#16⟩ op = true) :
    fieldT op = t := by
  have hmask : op &&& 0xF000#16 = encodeNNN t 0#12 := OpRow.matches_iff.1 h
  rw [← encodeNNN_fields op, encodeNNN_mask] at hmask
  simpa using congrArg fieldT hmask

theorem encodeNNN_of_matches {op : Word} {t : BitVec 4} (h : OpRow.matches ⟨encodeNNN t 0#12, 0xF000#16⟩ op = true) :
    encodeNNN t (fieldNNN op) = op := encodeNNN_of_field (fieldT_of_matches h)

theorem encodeXKK_of_matches {op : Word} {t : BitVec 4} (h : OpRow.matches ⟨encodeNNN t 0#12, 0xF000#16⟩ op = true) :
    encodeXKK t (fieldX op) (fieldKK op) = op := encodeXKK_of_fields (fieldT_of_matches h) rfl

theorem encodeXYN_of_matches {op : Word} {t : BitVec 4} (h : OpRow.matches ⟨encodeNNN t 0#12, 0xF000#16⟩ op = true) :
    encodeXYN t (fieldX op) (fieldY op) (regBits (fieldN op)) = op := encodeXYN_of_fields (fieldT_of_matches h) rfl

/-- The mask `F0FF` tests the fields `t` and `kk`. -/
theorem encodeX_of_matches {op : Word} {t : BitVec 4} {kk : Byte}
    (h : OpRow.matches ⟨encodeXKK t 0 kk, 0xF0FF#16⟩ op = true) : encodeXKK t (fieldX op) kk = op := by
  have hmask : op &&& 0xF0FF#16 = encodeXKK t 0 kk := OpRow.matches_iff.1 h
  rw [← encodeXKK_fields op, encodeX_mask] at hmask
  exact encodeXKK_of_fields (by simpa using congrArg fieldT hmask) (by simpa using congrArg fieldKK hmask)

/-- The mask `F00F` tests the field `t` and the low nibble. -/
theorem encodeXY_of_matches {op : Word} {t low : BitVec 4}
    (h : OpRow.matches ⟨encodeXYN t 0 0 low, 0xF00F#16⟩ op = true) : encodeXYN t (fieldX op) (fieldY op) low = op := by
  have hmask : op &&& 0xF00F#16 = encodeXYN t 0 0 low := OpRow.matches_iff.1 h
  rw [← encodeXYN_fields op, encodeXY_mask] at hmask
  exact encodeXYN_of_fields (by simpa using congrArg fieldT hmask) (by simpa using congrArg fieldLow hmask)

/-- The mask `FFFF` tests the whole word. -/
theorem eq_of_matches_fixed {op code : Word} (h : OpRow.matches ⟨code, 0xFFFF#16⟩ op = true) : code = op := by
  have hmask : op &&& BitVec.allOnes 16 = code := OpRow.matches_iff.1 h
  rw [BitVec.and_allOnes] at hmask
  exact hmask.symm

/-- A word that matches a row of the table is the word of that row's instruction, its operands the fields of the word (R93,
R95). -/
theorem exists_encode_of_matches (op : Word) :
    ∀ r ∈ opTable, r.matches op = true → ∃ i : Instr, i.row = r ∧ encode i = op := by
  simp only [opTable, List.cons_append, List.nil_append, List.forall_mem_cons]
  exact
    ⟨fun h => ⟨.cls, rfl, eq_of_matches_fixed h⟩,
     fun h => ⟨.ret, rfl, eq_of_matches_fixed h⟩,
     fun h => ⟨.jp (fieldNNN op), rfl, encodeNNN_of_matches h⟩,
     fun h => ⟨.call (fieldNNN op), rfl, encodeNNN_of_matches h⟩,
     fun h => ⟨.seImm (fieldX op) (fieldKK op), rfl, encodeXKK_of_matches h⟩,
     fun h => ⟨.sneImm (fieldX op) (fieldKK op), rfl, encodeXKK_of_matches h⟩,
     fun h => ⟨.seReg (fieldX op) (fieldY op), rfl, encodeXY_of_matches h⟩,
     fun h => ⟨.ldImm (fieldX op) (fieldKK op), rfl, encodeXKK_of_matches h⟩,
     fun h => ⟨.addImm (fieldX op) (fieldKK op), rfl, encodeXKK_of_matches h⟩,
     fun h => ⟨.ldReg (fieldX op) (fieldY op), rfl, encodeXY_of_matches h⟩,
     fun h => ⟨.orReg (fieldX op) (fieldY op), rfl, encodeXY_of_matches h⟩,
     fun h => ⟨.andReg (fieldX op) (fieldY op), rfl, encodeXY_of_matches h⟩,
     fun h => ⟨.xorReg (fieldX op) (fieldY op), rfl, encodeXY_of_matches h⟩,
     fun h => ⟨.addReg (fieldX op) (fieldY op), rfl, encodeXY_of_matches h⟩,
     fun h => ⟨.subReg (fieldX op) (fieldY op), rfl, encodeXY_of_matches h⟩,
     fun h => ⟨.shr (fieldX op) (fieldY op), rfl, encodeXY_of_matches h⟩,
     fun h => ⟨.subnReg (fieldX op) (fieldY op), rfl, encodeXY_of_matches h⟩,
     fun h => ⟨.shl (fieldX op) (fieldY op), rfl, encodeXY_of_matches h⟩,
     fun h => ⟨.sneReg (fieldX op) (fieldY op), rfl, encodeXY_of_matches h⟩,
     fun h => ⟨.ldI (fieldNNN op), rfl, encodeNNN_of_matches h⟩,
     fun h => ⟨.jpV0 (fieldNNN op), rfl, encodeNNN_of_matches h⟩,
     fun h => ⟨.rnd (fieldX op) (fieldKK op), rfl, encodeXKK_of_matches h⟩,
     fun h => ⟨.drw (fieldX op) (fieldY op) (fieldN op), rfl, encodeXYN_of_matches h⟩,
     fun h => ⟨.skp (fieldX op), rfl, encodeX_of_matches h⟩,
     fun h => ⟨.sknp (fieldX op), rfl, encodeX_of_matches h⟩,
     fun h => ⟨.ldFromDT (fieldX op), rfl, encodeX_of_matches h⟩,
     fun h => ⟨.ldKey (fieldX op), rfl, encodeX_of_matches h⟩,
     fun h => ⟨.ldDT (fieldX op), rfl, encodeX_of_matches h⟩,
     fun h => ⟨.ldST (fieldX op), rfl, encodeX_of_matches h⟩,
     fun h => ⟨.addI (fieldX op), rfl, encodeX_of_matches h⟩,
     fun h => ⟨.ldF (fieldX op), rfl, encodeX_of_matches h⟩,
     fun h => ⟨.ldB (fieldX op), rfl, encodeX_of_matches h⟩,
     fun h => ⟨.storeRegs (fieldX op), rfl, encodeX_of_matches h⟩,
     fun h => ⟨.loadRegs (fieldX op), rfl, encodeX_of_matches h⟩,
     fun _ hr => absurd hr List.not_mem_nil⟩

/-- A word that matches no row is rejected by its own name: an instruction read from it would match its row (R96). -/
theorem decodeWord_of_not_wellFormed {op : Word} (h : wellFormedWord op = false) :
    decodeWord op = .error (.unknownOpcode op) := by
  have hread := decodeWord_readsBack op
  generalize decodeWord op = answer at hread ⊢
  cases hread with
  | ok hi => rw [← hi, wellFormedWord_encode] at h; cases h
  | unknown => rfl

/-- Settles O4: a matching word is the word of an instruction of that row, which decodes back; any other word is no
instruction's. -/
theorem decoderAgreesWithMatchAndMask : Obligations.DecoderAgreesWithMatchAndMask := by
  refine fun op => ⟨fun r hr hmatch => ?_, decodeWord_of_not_wellFormed⟩
  obtain ⟨i, hrow, rfl⟩ := exists_encode_of_matches op r hr hmatch
  exact ⟨i, decodeWord_encode i, hrow⟩

/-! ### Words written in the spec -/

/-- Settles O1: each word is the encoding of the instruction it stands for, and `8128` matches no row of the table. -/
theorem writtenWordsDecode : Obligations.WrittenWordsDecode :=
  ⟨decodeWord_encode .cls, decodeWord_encode .ret, decodeWord_encode (.jp 0x204#12), decodeWord_encode (.sneImm 3 0x11#8),
    decodeWord_encode (.addReg 0 15), decodeWord_encode (.shl 1 2), decodeWord_encode (.storeRegs 2),
    decodeWord_encode (.drw 0 1 2), decodeWord_encode (.sknp 2), decodeWord_encode (.ldKey 3),
    decodeWord_of_not_wellFormed (by decide), decode_encodeBytes_append (.ldI 0x20C#12) [0x60#8]⟩

end Sys2Proof
end

section
/-!
PROOFS. The fetch and the three ways a step of a running core goes on from it: the decoded instruction, the unknown opcode, the
fault (30_encoding R90, R91, R97, 60_exceptions R204, R207).
-/
namespace Sys2Proof.Machine

/-! ### The fetch -/

theorem toNat_bigEndian (hi lo : Byte) : (bigEndian hi lo).toNat = 256 * hi.toNat + lo.toNat := by
  show (hi ++ lo : Word).toNat = _
  rw [BitVec.toNat_append, ← Nat.shiftLeft_add_eq_or_of_lt lo.isLt, Nat.shiftLeft_eq]
  omega

/-- The address a fetch beyond 0xFFE faults at: the first of `pc`, `pc + 1` outside memory (R91). -/
theorem firstOutside_eq {pc : Word} (h : 0xFFE < pc.toNat) :
    BitVec.ofNat 16 (max pc.toNat 4096) = if pc.toNat = 0xFFF then 0x1000#16 else pc := by
  split
  · next hlast => rw [hlast]; rfl
  · rw [max_eq_left (by omega), BitVec.ofNat_toNat, BitVec.setWidth_eq]

theorem State.fetch_beyond (s : State) (h : 0xFFE < s.pc.toNat) :
    s.fetch = .error (.outOfBounds (if s.pc.toNat = 0xFFF then 0x1000#16 else s.pc)) := by
  rw [s.fetch_of_gt h, firstOutside_eq h]

/-- Settles O5: the fetch within memory and the fetch beyond it, the word of two bytes read as a number. -/
theorem fetchIsBigEndianAndBounded : Obligations.FetchIsBigEndianAndBounded := by
  refine fun s => ⟨fun h => ⟨_, s.fetch_of_le h, toNat_bigEndian _ _⟩, fun h => ?_, fun h => ?_⟩
  · rw [s.fetch_beyond (by omega), if_pos h]
  · rw [s.fetch_beyond (by omega), if_neg (by omega)]

/-! ### The diagnostic of a running core (R204) -/

theorem diagnostic_of_fetch_error {s : State} {f : Fault} (h : s.run = .running) (hf : s.fetch = .error f) :
    s.diagnostic = none := by
  simp [State.diagnostic, h, hf]

theorem diagnostic_of_decode_ok {s : State} {op : Word} {i : Instr} (h : s.run = .running) (hf : s.fetch = .ok op)
    (hd : decodeWord op = .ok i) : s.diagnostic = none := by
  simp [State.diagnostic, h, hf, hd]

theorem diagnostic_of_decode_error {s : State} {op : Word} {e : Reject} (h : s.run = .running) (hf : s.fetch = .ok op)
    (hd : decodeWord op = .error e) : s.diagnostic = some (.unknownOpcode s.pc op) := by
  simp [State.diagnostic, h, hf, hd]

/-! ### Frames -/

theorem StatePart.same_self (s : State) (p : StatePart) : p.same s s := by
  cases p with
  | v => exact fun _ => rfl
  | stack => exact ⟨rfl, rfl⟩
  | mem => exact ⟨rfl, fun _ => rfl⟩
  | _ => rfl

theorem sameExcept_setPc (s : State) (a : Word) : SameExcept [.pc] s (s.setPc a) := by
  intro p hp
  have hsame := StatePart.same_self s p
  cases p with
  | pc => exact absurd (List.mem_singleton_self _) hp
  | _ => exact hsame

theorem faultTaken_faultEntry (s : State) (f : Fault) : FaultTaken (faultCode f) (faultInfo f) s (s.faultEntry f) := by
  refine ⟨rfl, rfl, fun p hp => ?_⟩
  have hsame := StatePart.same_self s p
  cases p with
  | run | fault => simp at hp
  | _ => exact hsame

/-! ### The steps -/

/-- Settles O6: with `pc` within memory the word fetched is the word of the two bytes at `pc`. -/
theorem stepRunsTheDecodedInstruction : Obligations.StepRunsTheDecodedInstruction := by
  intro s i hrun hpc hdecode
  have hfetch := s.fetch_of_le hpc
  exact ⟨step_of_decode_ok hrun hfetch hdecode, diagnostic_of_decode_ok hrun hfetch hdecode⟩

/-- Settles O7: a word that matches no row is rejected, and the step of a rejected word advances `pc` and nothing else. -/
theorem unknownOpcodeIsAReportedNoOp : Obligations.UnknownOpcodeIsAReportedNoOp := by
  rintro s op hrun hpc rfl hword
  have hfetch := s.fetch_of_le hpc
  have hdecode := decodeWord_of_not_wellFormed hword
  exact ⟨⟨_, step_of_decode_error hrun hfetch hdecode, rfl, sameExcept_setPc s _⟩,
    diagnostic_of_decode_error hrun hfetch hdecode⟩

/-- Settles O8: the fetch raises OutOfBounds, so the step is fault entry. -/
theorem fetchBeyondMemoryFaults : Obligations.FetchBeyondMemoryFaults := by
  intro s hrun hpc
  have hfetch := s.fetch_beyond hpc
  exact ⟨⟨_, step_of_fetch_error hrun hfetch, faultTaken_faultEntry s _⟩, diagnostic_of_fetch_error hrun hfetch⟩

/-- Settles O11, along everything a step can do: the halted core stays, the waiting core waits or takes a key, a fault is
entered, an instruction answers one of its effects, an unknown opcode advances. -/
theorem everyStateHasANextState : Obligations.EveryStateHasANextState := by
  intro s
  obtain ⟨-, hs⟩ | ⟨r, -, hs⟩ | ⟨-, -, hs⟩ | ⟨op, i, -, -, -, -, hs⟩ | ⟨op, e, -, -, -, -, hs⟩ := step_cases s
  · exact ⟨_, hs⟩
  · obtain ⟨-, hk⟩ | ⟨k, -, hk⟩ := keyWaitStep_cases r s <;> exact ⟨_, hs.trans hk⟩
  · exact ⟨_, hs⟩
  · obtain ⟨t, hexec, -⟩ := exec_next s i
    exact ⟨t, hs.trans hexec⟩
  · exact ⟨_, hs⟩

end Sys2Proof.Machine
end

section
/-!
PROOFS. Control transfer: the jumps, the call and the return, and a call that comes back (40_control_flow R110 to R114).
-/
namespace Sys2Proof.Machine

/-! ### Addresses -/

theorem toNat_addrOf (nnn : BitVec 12) : (addrOf nnn).toNat = nnn.toNat := BitVec.toNat_setWidth_of_le (by decide)

theorem toNat_zext16 (b : Byte) : (zext16 b).toNat = b.toNat := BitVec.toNat_setWidth_of_le (by decide)

/-- The sum of an address and a byte does not wrap: it fits in 16 bits (D1). -/
theorem toNat_addrOf_add_zext16 (nnn : BitVec 12) (b : Byte) : (addrOf nnn + zext16 b).toNat = nnn.toNat + b.toNat := by
  have hfits : (addrOf nnn).toNat + (zext16 b).toNat < 2 ^ 16 := by
    rw [toNat_addrOf, toNat_zext16]
    omega
  rw [BitVec.toNat_add_of_lt hfits, toNat_addrOf, toNat_zext16]

/-! ### Frames -/

theorem StatePart.same_trans {s t u : State} {p : StatePart} (hst : p.same s t) (htu : p.same t u) : p.same s u := by
  cases p with
  | v => exact fun r => (htu r).trans (hst r)
  | stack => exact ⟨htu.1.trans hst.1, htu.2.trans hst.2⟩
  | mem => exact ⟨htu.1.trans hst.1, fun a => (htu.2 a).trans (hst.2 a)⟩
  | _ => exact Eq.trans htu hst

theorem SameExcept.trans {changed : List StatePart} {s t u : State} (hst : SameExcept changed s t)
    (htu : SameExcept changed t u) : SameExcept changed s u :=
  fun p hp => StatePart.same_trans (hst p hp) (htu p hp)

theorem SameExcept.mono {changed more : List StatePart} {s t : State} (h : SameExcept changed s t)
    (hsub : changed ⊆ more) : SameExcept more s t :=
  fun p hp => h p fun hmem => hp (hsub hmem)

theorem sameExcept_setCallStack_setPc (s : State) (sp : Fin 17) (stack : Vector Word 16) (a : Word) :
    SameExcept [.stack, .pc] s ((s.setCallStack sp stack).setPc a) := by
  intro p hp
  have hsame := StatePart.same_self s p
  cases p with
  | stack | pc => simp at hp
  | _ => exact hsame

/-! ### The call and the return, case by case -/

theorem execCall_of_lt (nnn : BitVec 12) {s : State} (h : s.sp.val < 16) : execCall nnn s =
    .next ((s.setCallStack ⟨s.sp.val + 1, by omega⟩ (s.stack.set s.sp.val (s.pc + 2#16) h)).setPc (addrOf nnn)) := by
  simp [execCall, s.push_of_lt _ h]

theorem execCall_full (nnn : BitVec 12) {s : State} (h : s.sp = 16) :
    execCall nnn s = .next (s.faultEntry .stackOverflow) := by
  simp [execCall, s.push_full _ h]

theorem execRet_of_pos {s : State} (h : 0 < s.sp.val) : execRet s =
    .next ((s.setCallStack ⟨s.sp.val - 1, by omega⟩ s.stack).setPc (s.stack[s.sp.val - 1]'(by omega))) := by
  simp [execRet, s.pop_of_pos h]

theorem execRet_empty {s : State} (h : s.sp = 0) : execRet s = .next (s.faultEntry .stackUnderflow) := by
  simp [execRet, s.pop_empty h]

/-! ### The transfers -/

/-- Settles O12: the target is the operand, zero-extended. -/
theorem jumpSetsPc : Obligations.JumpSetsPc :=
  fun nnn s => ⟨decodeWord_encode (.jp nnn), _, rfl, toNat_addrOf nnn, sameExcept_setPc s _⟩

/-- Settles O13: the sum of the operand and V0 does not wrap. -/
theorem jumpWithOffsetAddsVZero : Obligations.JumpWithOffsetAddsVZero :=
  fun nnn s => ⟨decodeWord_encode (.jpV0 nnn), _, rfl, toNat_addrOf_add_zext16 nnn _, sameExcept_setPc s _⟩

/-- Settles O14: with room the push writes the entry `sp` alone, and with the stack full it raises. -/
theorem callPushesTheReturnAddress : Obligations.CallPushesTheReturnAddress := by
  refine fun nnn s => ⟨decodeWord_encode (.call nnn), fun hroom => ?_, execCall_full nnn⟩
  refine ⟨_, execCall_of_lt nnn hroom, rfl, fun k => ?_, toNat_addrOf nnn, sameExcept_setCallStack_setPc s _ _ _⟩
  show (s.stack.set s.sp.val (s.pc + 2#16) hroom)[k.val] = _
  rw [Vector.getElem_set]
  exact if_congr eq_comm rfl rfl

/-- Settles O15: the pop takes the entry `sp - 1` and writes none, and with the stack empty it raises. -/
theorem returnPopsIntoPc : Obligations.ReturnPopsIntoPc := by
  refine fun s => ⟨decodeWord_encode .ret, fun hpos => ?_, execRet_empty⟩
  refine ⟨_, execRet_of_pos hpos, Nat.sub_add_cancel hpos, rfl, fun k hk => ?_, sameExcept_setCallStack_setPc s _ _ _⟩
  have hnewest : s.sp.val - 1 = k.val := by omega
  simp [hnewest]

/-! ### A call that comes back -/

/-- Settles O16: the call leaves memory as it was, so the next step fetches the return, which pops what the call pushed. -/
theorem callThenReturnComesBack : Obligations.CallThenReturnComesBack := by
  intro nnn s hrun hroom hfetch hnnn hhi hlo
  obtain ⟨hdecode, hcall, -⟩ := callPushesTheReturnAddress nnn s
  obtain ⟨t, hexec, hsp, hentry, hpc, hframe⟩ := hcall hroom
  obtain ⟨hdecode', hret, -⟩ := returnPopsIntoPc t
  obtain ⟨u, hexec', hsp', -, hpop, hframe'⟩ := hret (by omega)
  have hrun' : t.run = .running := (hframe .run (by decide)).trans hrun
  obtain ⟨-, hread⟩ : StatePart.mem.same s t := hframe .mem (by decide)
  have hfetch' : t.fetch = .ok 0x00EE#16 := by
    rw [t.fetch_of_le (by omega), hpc, hread, hread, hhi, hlo]
    rfl
  have hstep : step s = .next t := (step_of_decode_ok hrun hfetch hdecode).trans hexec
  have hstep' : step t = .next u := (step_of_decode_ok hrun' hfetch' hdecode').trans hexec'
  have hback : u.pc = s.pc + 2#16 := by
    rw [hpop ⟨s.sp.val, hroom⟩ hsp.symm, hentry, if_pos rfl]
  exact ⟨t, u, hstep, hstep', hback, by omega, (hframe.trans hframe').mono (by decide)⟩

end Sys2Proof.Machine
end

section
/-!
PROOFS. The skips on registers: what decodes to them, when they skip, and that they write `pc` alone (41_skips R121 to R124).
-/
namespace Sys2Proof.Machine

/-! ### The words of the groups 5 and 9 (R100) -/

theorem decodeWord_encodeXYN_group5 (x y : RegIdx) (n : BitVec 4) : decodeWord (encodeXYN 0x5#4 x y n) =
    if n = 0#4 then .ok (.seReg x y) else .error (.unknownOpcode (encodeXYN 0x5#4 x y n)) := by
  simp [decodeWord]

theorem decodeWord_encodeXYN_group9 (x y : RegIdx) (n : BitVec 4) : decodeWord (encodeXYN 0x9#4 x y n) =
    if n = 0#4 then .ok (.sneReg x y) else .error (.unknownOpcode (encodeXYN 0x9#4 x y n)) := by
  simp [decodeWord]

/-! ### A skip and its condition -/

theorem sameExcept_skipIf (s : State) (taken : Bool) : SameExcept [.pc] s (s.skipIf taken) := sameExcept_setPc s _

theorem State.pc_skipIf_beq (s : State) (a b : Byte) :
    (s.skipIf (a == b)).pc = s.pc + (if a = b then 4#16 else 2#16) := by
  rw [State.pc_skipIf, if_congr beq_iff_eq rfl rfl]

theorem State.pc_skipIf_bne (s : State) (a b : Byte) :
    (s.skipIf (a != b)).pc = s.pc + (if a = b then 2#16 else 4#16) := by
  rw [State.pc_skipIf, if_congr bne_iff_ne rfl rfl, ite_not]

/-! ### The skips -/

/-- Settles O17: each skip is `skipIf` on the comparison of the register with the byte. -/
theorem skipsOnAnImmediate : Obligations.SkipsOnAnImmediate :=
  fun x kk s => ⟨decodeWord_encode (.seImm x kk), decodeWord_encode (.sneImm x kk),
    ⟨_, rfl, s.pc_skipIf_beq _ _, sameExcept_skipIf s _⟩, ⟨_, rfl, s.pc_skipIf_bne _ _, sameExcept_skipIf s _⟩⟩

/-- Settles O18: the low nibble alone decides whether the word is a skip, and each skip is `skipIf` on the comparison of the
two registers. -/
theorem skipsOnTwoRegisters : Obligations.SkipsOnTwoRegisters :=
  fun x y n s => ⟨decodeWord_encodeXYN_group5 x y n, decodeWord_encodeXYN_group9 x y n,
    ⟨_, rfl, s.pc_skipIf_beq _ _, sameExcept_skipIf s _⟩, ⟨_, rfl, s.pc_skipIf_bne _ _, sameExcept_skipIf s _⟩⟩

end Sys2Proof.Machine
end

section
/-!
PROOFS. Register load, arithmetic, logic, shift and random: the value and the flag each instruction computes, and that it writes
nothing else but `pc` (42_alu R130 to R144).
-/
namespace Sys2Proof.Machine

/-! ### Values and flags as numbers (R144) -/

theorem toNat_byte_sub (a b : Byte) : (a - b).toNat = (a.toNat + 256 - b.toNat) % 256 := by
  rw [BitVec.toNat_sub]
  congr 1
  omega

theorem toNat_byte_shiftRight_one (a : Byte) : (a >>> 1).toNat = a.toNat / 2 := by
  rw [BitVec.toNat_ushiftRight, Nat.shiftRight_one]

theorem toNat_byte_shiftLeft_one (a : Byte) : (a <<< 1).toNat = a.toNat * 2 % 256 := by
  rw [BitVec.toNat_shiftLeft, Nat.shiftLeft_eq, pow_one]

theorem toNat_flagByte (b : Bool) : (flagByte b).toNat = b.toNat := by
  cases b <;> rfl

theorem toNat_flagByte_decide (p : Prop) [Decidable p] : (flagByte (decide p)).toNat = if p then 1 else 0 := by
  by_cases h : p
  · simp [flagByte, h]
  · simp [flagByte, h]

theorem toNat_flagByte_carryOut (a b : Byte) :
    (flagByte (carryOut a b)).toNat = if 255 < a.toNat + b.toNat then 1 else 0 :=
  toNat_flagByte_decide _

theorem toNat_flagByte_noBorrow (a b : Byte) : (flagByte (noBorrow a b)).toNat = if b.toNat ≤ a.toNat then 1 else 0 :=
  toNat_flagByte_decide _

theorem toNat_flagByte_lostLow (a : Byte) : (flagByte (lostLow a)).toNat = a.toNat % 2 := by
  rw [toNat_flagByte, lostLow, BitVec.getLsbD, Nat.toNat_testBit, pow_zero, Nat.div_one]

theorem toNat_flagByte_lostHigh (a : Byte) : (flagByte (lostHigh a)).toNat = a.toNat / 128 := by
  have hbit : a.toNat / 128 < 2 := by omega
  rw [toNat_flagByte, lostHigh, BitVec.getLsbD, Nat.toNat_testBit]
  exact Nat.mod_eq_of_lt hbit

/-! ### Frames -/

theorem sameExcept_writeV (s : State) (x : RegIdx) (b : Byte) : SameExcept [.v] s (s.writeV x b) := by
  intro p hp
  have hsame := StatePart.same_self s p
  cases p with
  | v => exact absurd (List.mem_singleton_self _) hp
  | _ => exact hsame

theorem sameExcept_countDraw (s : State) : SameExcept [.draws] s s.countDraw := by
  intro p hp
  have hsame := StatePart.same_self s p
  cases p with
  | draws => exact absurd (List.mem_singleton_self _) hp
  | _ => exact hsame

theorem SameExcept.advance {s t : State} (h : SameExcept [.v] s t) : SameExcept [.v, .pc] s t.advance :=
  (h.mono (by decide)).trans ((sameExcept_setPc t _).mono (by decide))

theorem sameExcept_writeFlagged (s : State) (x : RegIdx) (flag : Bool) (b : Byte) :
    SameExcept [.v] s (s.writeFlagged x flag b) :=
  (sameExcept_writeV s vf _).trans (sameExcept_writeV _ x b)

/-! ### The two ways an instruction of this family ends (R130) -/

/-- An instruction that writes no flag writes its result to `V[x]`, advances `pc` and changes nothing else. -/
theorem State.exists_endWith (s : State) (x : RegIdx) (b : Byte) :
    ∃ t, s.endWith x b = .next t ∧ t.readV x = b ∧ t.pc = s.pc + 2#16 ∧
      SameRegsExcept [x] s t ∧ SameExcept [.v, .pc] s t := by
  refine ⟨_, rfl, s.readV_writeV_self x b, rfl, fun q hq => ?_, (sameExcept_writeV s x b).advance⟩
  exact s.readV_writeV_of_ne b (List.ne_of_not_mem_cons hq)

/-- An instruction that writes a flag leaves its result in `V[x]` and the flag in VF, the result alone where `V[x]` is VF
(R22), advances `pc` and changes nothing else. -/
theorem State.exists_endWithFlag (s : State) (x : RegIdx) {flag : Bool} {b : Byte} {n m : Nat} (hb : b.toNat = n)
    (hflag : (flagByte flag).toNat = m) :
    ∃ t, s.endWithFlag x flag b = .next t ∧ (t.readV x).toNat = n ∧ (x ≠ 15 → (t.readV 15).toNat = m) ∧
      t.pc = s.pc + 2#16 ∧ SameRegsExcept [x, 15] s t ∧ SameExcept [.v, .pc] s t := by
  have hread (q : RegIdx) : (s.writeFlagged x flag b).advance.readV q =
      if q = x then b else if q = 15 then flagByte flag else s.readV q := s.readV_writeFlagged x q flag b
  refine ⟨_, rfl, ?_, fun hx => ?_, rfl, fun q hq => ?_, (sameExcept_writeFlagged s x flag b).advance⟩
  · rw [hread, if_pos rfl, hb]
  · rw [hread, if_neg hx.symm, if_pos rfl, hflag]
  · obtain ⟨hqx, hqf⟩ : q ≠ x ∧ q ≠ 15 := by simpa using hq
    rw [hread, if_neg hqx, if_neg hqf]

/-! ### The instructions -/

theorem State.exists_execAddImm (s : State) (x : RegIdx) (kk : Byte) :
    ∃ t, execAddImm x kk s = .next t ∧ (t.readV x).toNat = ((s.readV x).toNat + kk.toNat) % 256 ∧ t.pc = s.pc + 2#16 ∧
      SameRegsExcept [x] s t ∧ SameExcept [.v, .pc] s t := by
  obtain ⟨t, hexec, hx, hrest⟩ := s.exists_endWith x (s.readV x + kk)
  exact ⟨t, hexec, hx ▸ BitVec.toNat_add _ _, hrest⟩

/-- Settles O20: both write their value to `V[x]` and no flag, and the addition after the load reads what the load wrote. -/
theorem loadAndAddAnImmediate : Obligations.LoadAndAddAnImmediate := by
  intro x kk s
  have hload := s.exists_endWith x kk
  refine ⟨decodeWord_encode (.ldImm x kk), decodeWord_encode (.addImm x kk), hload, s.exists_execAddImm x kk, ?_⟩
  obtain ⟨t, hexec, hx, -⟩ := hload
  obtain ⟨u, hexec', hx', -⟩ := t.exists_execAddImm x kk
  exact ⟨t, u, hexec, hexec', by rw [hx', hx, two_mul]⟩

/-- Settles O21: each of the four writes its value to `V[x]` and no flag. -/
theorem copyAndBitwiseLogic : Obligations.CopyAndBitwiseLogic :=
  fun x y s => ⟨decodeWord_encode (.ldReg x y), decodeWord_encode (.orReg x y), decodeWord_encode (.andReg x y),
    decodeWord_encode (.xorReg x y), s.exists_endWith x _, s.exists_endWith x _, s.exists_endWith x _, s.exists_endWith x _⟩

/-- Settles O22: the flag is the carry out of the exact sum. -/
theorem addReportsTheCarry : Obligations.AddReportsTheCarry :=
  fun x y s => ⟨decodeWord_encode (.addReg x y),
    s.exists_endWithFlag x (BitVec.toNat_add _ _) (toNat_flagByte_carryOut _ _)⟩

/-- Settles O23: the flag is no-borrow of the same two operands, in the same order, as the difference. -/
theorem subtractReportsNoBorrow : Obligations.SubtractReportsNoBorrow :=
  fun x y s => ⟨decodeWord_encode (.subReg x y), decodeWord_encode (.subnReg x y),
    s.exists_endWithFlag x (toNat_byte_sub _ _) (toNat_flagByte_noBorrow _ _),
    s.exists_endWithFlag x (toNat_byte_sub _ _) (toNat_flagByte_noBorrow _ _)⟩

/-- Settles O24: the flag is the low bit for the shift right and the high bit for the shift left. -/
theorem shiftsReportTheLostBit : Obligations.ShiftsReportTheLostBit :=
  fun x y s => ⟨decodeWord_encode (.shr x y), decodeWord_encode (.shl x y),
    s.exists_endWithFlag x (toNat_byte_shiftRight_one _) (toNat_flagByte_lostLow _),
    s.exists_endWithFlag x (toNat_byte_shiftLeft_one _) (toNat_flagByte_lostHigh _)⟩

/-- Settles O25: the draw is counted first and the masked byte written after it, so the write keeps the new count. -/
theorem randomIsMasked : Obligations.RandomIsMasked := by
  intro x kk s
  obtain ⟨t, hexec, hx, hpc, hregs, hframe⟩ := s.countDraw.exists_endWith x (Config.randomByte s.draws &&& kk)
  have hdraws : t.draws = s.draws + 1 := hframe .draws (by decide)
  refine ⟨decodeWord_encode (.rnd x kk), t, hexec, fun k => ?_, hdraws, hpc, hregs, ?_⟩
  · rw [hx, BitVec.getLsbD_and]
  · exact ((sameExcept_countDraw s).mono (by decide)).trans (hframe.mono (by decide))

end Sys2Proof.Machine
end

section
/-!
PROOFS. The index register and the moves of bytes between registers and memory: what each instruction leaves in `I`, memory and
registers, and the fault that moves nothing (43_index_memory R150 to R156, 20_memory R73).
-/
namespace Sys2Proof.Machine

/-! ### Frames -/

theorem sameExcept_setI (s : State) (a : Word) : SameExcept [.i] s (s.setI a) := by
  intro p hp
  have hsame := StatePart.same_self s p
  cases p with
  | i => exact absurd (List.mem_singleton_self _) hp
  | _ => exact hsame

theorem sameExcept_setMem (s : State) (m : Memory) : SameExcept [.mem] s (s.setMem m) := by
  intro p hp
  have hsame := StatePart.same_self s p
  cases p with
  | mem => exact absurd (List.mem_singleton_self _) hp
  | _ => exact hsame

theorem sameExcept_setRegs (s : State) (w : Vector Byte 16) : SameExcept [.v] s (s.setRegs w) := by
  intro p hp
  have hsame := StatePart.same_self s p
  cases p with
  | v => exact absurd (List.mem_singleton_self _) hp
  | _ => exact hsame

theorem SameExcept.pair_advance {p : StatePart} {s t : State} (h : SameExcept [p] s t) : SameExcept [p, .pc] s t.advance :=
  (h.mono (by simp)).trans ((sameExcept_setPc t _).mono (by simp))

/-! ### The index register -/

theorem toNat_ofNat_of_lt {w n : Nat} (h : n < 2 ^ w) : (BitVec.ofNat w n).toNat = n := by
  rw [BitVec.toNat_ofNat, Nat.mod_eq_of_lt h]

theorem toNat_add_zext16 (a : Word) (b : Byte) : (a + zext16 b).toNat = (a.toNat + b.toNat) % 65536 := by
  rw [BitVec.toNat_add, toNat_zext16]

/-- The product of a byte and 5 fits in 16 bits, so the whole byte counts (D16). -/
theorem toNat_glyphAddr (b : Byte) : (glyphAddr b).toNat = b.toNat * 5 := by
  have hfits : b.toNat * 5 < 2 ^ 16 := by omega
  exact toNat_ofNat_of_lt hfits

/-- An instruction that sets `I` to a word of value `n` advances `pc` and changes nothing else. -/
theorem State.exists_setI_advance (s : State) {a : Word} {n : Nat} (ha : a.toNat = n) :
    ∃ t, (Host.Outcome.next (s.setI a).advance : Answer) = .next t ∧ t.i.toNat = n ∧ t.pc = s.pc + 2#16 ∧
      SameExcept [.i, .pc] s t :=
  ⟨_, rfl, ha, rfl, (sameExcept_setI s a).pair_advance⟩

/-- Settles O26: the operand, zero-extended, keeps its value. -/
theorem loadIndexWithAnAddress : Obligations.LoadIndexWithAnAddress :=
  fun nnn s => ⟨decodeWord_encode (.ldI nnn), s.exists_setI_advance (toNat_addrOf nnn)⟩

/-- Settles O27: the sum wraps at 16 bits, the product does not reach them. -/
theorem indexArithmetic : Obligations.IndexArithmetic :=
  fun x s => ⟨decodeWord_encode (.addI x), decodeWord_encode (.ldF x),
    s.exists_setI_advance (toNat_add_zext16 _ _), s.exists_setI_advance (toNat_glyphAddr _)⟩

/-! ### Stores at `I` (R69, R150) -/

/-- A store whose block lies in memory leaves the `k`-th byte at `I + k`, advances `pc` and changes nothing else. -/
theorem State.exists_storeAtI {s : State} {bs : List Byte} (hwf : s.mem.wf = true)
    (hle : s.i.toNat + bs.length ≤ 4096) :
    ∃ t, s.storeAtI bs = .next t ∧ (∀ (k : Nat) (hk : k < bs.length), t.mem.read (s.i.toNat + k) = bs[k]) ∧
      t.pc = s.pc + 2#16 ∧ SameBytesOutside s.i.toNat bs.length s t ∧ SameExcept [.mem, .pc] s t := by
  obtain ⟨-, h⟩ | ⟨hb, -⟩ := s.storeAtI_cases bs
  · exact ⟨_, h, fun k hk => Memory.read_writeBytes_inside hwf hk hle, rfl,
      ⟨s.mem.font_writeBytes _ bs, fun b hb => s.mem.read_writeBytes_of_outside hb⟩, (sameExcept_setMem s _).pair_advance⟩
  · exact absurd (.inr hle) hb

/-- A store of at least one byte whose block leaves memory is fault entry. -/
theorem State.storeAtI_beyond {s : State} {bs : List Byte} (hpos : 0 < bs.length) (hgt : 4096 < s.dataAddr + bs.length) :
    s.storeAtI bs = .next (s.faultEntry (.outOfBounds (BitVec.ofNat 16 (max s.i.toNat 4096)))) := by
  obtain ⟨hb, -⟩ | ⟨-, h⟩ := s.storeAtI_cases bs
  · exact absurd hb (by omega)
  · exact h

/-! ### The decimal digits (R154) -/

@[simp] theorem length_bcdDigits (a : Byte) : (bcdDigits a).length = 3 := by simp [bcdDigits]

/-- Every digit of a byte is a whole byte, so it keeps its value. -/
theorem toNat_getElem_bcdDigits (a : Byte) : (bcdDigits a)[0].toNat = a.toNat / 100 ∧
    (bcdDigits a)[1].toNat = a.toNat / 10 % 10 ∧ (bcdDigits a)[2].toNat = a.toNat % 10 :=
  ⟨toNat_ofNat_of_lt (by omega), toNat_ofNat_of_lt (by omega), toNat_ofNat_of_lt (by omega)⟩

/-- Settles O28: the block of three digits lies in memory or it does not; a digit is below 10 and the hundreds digit of a byte
below 3, so each is a whole byte. -/
theorem decimalDigitsAreStored : Obligations.DecimalDigitsAreStored := by
  refine fun x s hwf => ⟨decodeWord_encode (.ldB x), fun hin => ?_, fun hout => ?_⟩
  · obtain ⟨t, hexec, hread, hrest⟩ := State.exists_storeAtI (bs := bcdDigits (s.readV x)) hwf (Nat.succ_le_of_lt hin)
    obtain ⟨hhundreds, htens, hones⟩ := toNat_getElem_bcdDigits (s.readV x)
    rw [← hread 0, Nat.add_zero] at hhundreds
    rw [← hread 1] at htens
    rw [← hread 2] at hones
    refine ⟨t, hexec, ?_, ?_, ?_, ?_, hrest⟩ <;> omega
  · exact State.storeAtI_beyond (bs := bcdDigits (s.readV x)) (Nat.succ_pos 2) (Nat.lt_succ_of_le hout)

/-! ### Register blocks (R155, R156) -/

/-- Settles O29: the block of `x + 1` registers lies in memory or it does not, and its `k`-th byte is `V[k]`. -/
theorem registersAreStored : Obligations.RegistersAreStored := by
  intro x s hwf
  have hlen := s.length_regBlock x
  refine ⟨decodeWord_encode (.storeRegs x), fun hin => ?_, fun hout => ?_⟩
  · obtain ⟨t, hexec, hread, hpc, houtside, hframe⟩ := State.exists_storeAtI (bs := s.regBlock x) hwf (by omega)
    refine ⟨t, hexec, fun k hk => ?_, hpc, hlen ▸ houtside, hframe⟩
    rw [hread k.val (hlen ▸ Nat.lt_succ_of_le hk), s.getElem_regBlock]
  · exact State.storeAtI_beyond (bs := s.regBlock x) (hlen ▸ Nat.succ_pos _) (hlen ▸ Nat.lt_succ_of_le hout)

/-- Settles O30: the block of `x + 1` bytes lies in memory or it does not. -/
theorem registersAreLoaded : Obligations.RegistersAreLoaded := by
  refine fun x s => ⟨decodeWord_encode (.loadRegs x), fun hin => ?_, fun hout => ?_⟩
  · obtain ⟨-, h⟩ | ⟨hb, -⟩ := execLoadRegs_cases x s
    · exact ⟨_, h, fun r => s.readV_loadBlock x r s.i.toNat, rfl, (sameExcept_setRegs s _).pair_advance⟩
    · exact absurd (.inr hin) hb
  · obtain ⟨hb, -⟩ | ⟨-, h⟩ := execLoadRegs_cases x s
    · exact absurd (hb.resolve_left (Nat.succ_ne_zero _)) (Nat.not_le_of_lt (Nat.lt_succ_of_le hout))
    · exact h

/-- Settles O31: the store leaves `I` as it was, so the load reads the block the store wrote, whatever the registers hold in
between. -/
theorem storedRegistersLoadBack : Obligations.StoredRegistersLoadBack := by
  intro x s t w hwf hin hstore
  obtain ⟨-, hstored, -⟩ := registersAreStored x s hwf
  obtain ⟨t', hexec, hread, -, -, hframe⟩ := hstored hin
  obtain rfl : t' = t := Host.Outcome.next.inj (hexec.symm.trans hstore)
  have hi : (t'.setRegs w).i = s.i := hframe .i (by decide)
  obtain ⟨-, hloaded, -⟩ := registersAreLoaded x (t'.setRegs w)
  obtain ⟨u, hload, hregs, -⟩ := hloaded (by rwa [hi])
  refine ⟨u, hload, fun r => ?_⟩
  rw [hregs, hi, State.mem_setRegs, State.readV_setRegs]
  exact ite_congr rfl (hread r) fun _ => rfl

end Sys2Proof.Machine
end

section
/-!
PROOFS. The display: the clear, the draw as an XOR of the sprite onto the screen with its collision in VF, and the draw that
undoes itself (44_display R162 to R165).
-/
namespace Sys2Proof.Machine

theorem sameExcept_setFb (s : State) (fb : Framebuffer) : SameExcept [.fb] s (s.setFb fb) := by
  intro p hp
  have hsame := StatePart.same_self s p
  cases p with
  | fb => exact absurd (List.mem_singleton_self _) hp
  | _ => exact hsame

/-- Settles O33: the cleared framebuffer is off at every pixel, and the clear writes it and `pc` alone. -/
theorem clearTurnsEveryPixelOff : Obligations.ClearTurnsEveryPixelOff :=
  fun s => ⟨decodeWord_encode .cls, _, rfl, getPixel_clearedFb, rfl, (sameExcept_setFb s _).pair_advance⟩

/-! ### Drawing twice -/

/-- Settles O35: at each pixel the sprite's bit is XORed in twice, and the second draw meets what the first left on. -/
theorem drawingTwiceRestoresTheScreen : Obligations.DrawingTwiceRestoresTheScreen := by
  intro fb ox oy rows hlen
  have hrows : rows.length ≤ 32 := hlen.trans (by decide)
  refine ⟨framebuffer_ext fun row col => ?_, ?_⟩
  · rw [draw_pixel _ ox oy rows hrows, draw_pixel fb ox oy rows hrows, Bool.xor_assoc, Bool.xor_self, Bool.xor_false]
  · rw [draw_collision _ ox oy rows hrows, decide_eq_true_iff]
    exact exists_congr fun row => exists_congr fun col => and_comm

/-! ### The draw instruction (R165) -/

theorem sameExcept_drawn (s : State) (x y : RegIdx) (rows : List Byte) :
    SameExcept [.v, .fb, .pc] s (s.drawn x y rows) :=
  ((sameExcept_setFb s _).mono (by decide)).trans ((sameExcept_writeV _ vf _).advance.mono (by decide))

theorem State.readV_drawn_of_ne (s : State) (x y : RegIdx) (rows : List Byte) {q : RegIdx} (hq : q ≠ vf) :
    (s.drawn x y rows).readV q = s.readV q :=
  State.readV_writeV_of_ne _ _ hq

/-- The drawing XORs the sprite's bits into the screen. -/
theorem State.getPixel_drawn (s : State) (x y : RegIdx) {rows : List Byte} (hrows : rows.length ≤ 32) (row : Fin 32)
    (col : Fin 64) : getPixel (s.drawn x y rows).fb row col =
      (getPixel s.fb row col ^^ decide (SpriteLights (s.readV x).toNat (s.readV y).toNat rows row col)) :=
  draw_pixel s.fb _ _ rows hrows row col

/-- The drawing leaves in VF whether some lit pixel lay under a lit sprite bit. -/
theorem State.readV_drawn_vf_eq (s : State) (x y : RegIdx) {rows : List Byte} (hrows : rows.length ≤ 32) :
    (s.drawn x y rows).readV vf = flagByte (decide (∃ row col, getPixel s.fb row col = true ∧
      SpriteLights (s.readV x).toNat (s.readV y).toNat rows row col)) := by
  rw [State.drawn, State.readV_advance, State.readV_writeV_self, draw_collision _ _ _ _ hrows]

/-- Settles O34: the sprite's rows lie in memory, and then they are drawn, or they do not, and then the draw is fault entry. -/
theorem drawXorsTheSprite : Obligations.DrawXorsTheSprite := by
  intro x y n s rows lit
  have hlen : rows.length = n.val := (List.length_map _).trans List.length_range
  have hrows : rows.length ≤ 32 := by omega
  refine ⟨decodeWord_encode (.drw x y n), fun hin => ?_, fun ⟨hpos, hgt⟩ => ?_⟩
  · obtain ⟨-, h⟩ | ⟨hout, -⟩ := execDrw_cases x y n s
    · rw [Memory.readBytes_eq_map] at h
      have hvf := s.readV_drawn_vf_eq x y hrows
      refine ⟨s.drawn x y rows, h, s.getPixel_drawn x y hrows, fun hmeets => ?_, fun hdark => ?_, rfl, fun q hq => ?_,
        sameExcept_drawn s x y rows⟩
      · exact hvf.trans (congrArg flagByte (decide_eq_true hmeets))
      · have hnone : ¬ ∃ row col, getPixel s.fb row col = true ∧ lit row col := fun ⟨row, col, hon, hlit⟩ =>
          Bool.eq_false_iff.1 (hdark row col hlit) hon
        exact hvf.trans (congrArg flagByte (decide_eq_false hnone))
      · exact s.readV_drawn_of_ne x y rows (List.ne_of_not_mem_cons hq)
    · exact absurd hin hout
  · obtain ⟨hin, -⟩ | ⟨-, h⟩ := execDrw_cases x y n s
    · exact absurd hgt (Nat.not_lt.2 (hin.resolve_left hpos.ne'))
    · exact h

end Sys2Proof.Machine
end

section
/-!
PROOFS. Keypad and timers: the skips on a key, the key instruction with its wait and why waiting is the same as executing it
again, and the instructions that read and write the timers (45_keypad_timers R180 to R187).
-/
namespace Sys2Proof.Machine

/-! ### Frames -/

theorem sameExcept_setRun (s : State) (q : RunState) : SameExcept [.run] s (s.setRun q) := by
  intro p hp
  have hsame := StatePart.same_self s p
  cases p with
  | run => exact absurd (List.mem_singleton_self _) hp
  | _ => exact hsame

theorem sameExcept_setDT (s : State) (b : Byte) : SameExcept [.dt] s (s.setDT b) := by
  intro p hp
  have hsame := StatePart.same_self s p
  cases p with
  | dt => exact absurd (List.mem_singleton_self _) hp
  | _ => exact hsame

theorem sameExcept_setST (s : State) (b : Byte) : SameExcept [.st] s (s.setST b) := by
  intro p hp
  have hsame := StatePart.same_self s p
  cases p with
  | st => exact absurd (List.mem_singleton_self _) hp
  | _ => exact hsame

/-! ### A key taken (R184) -/

theorem State.readV_takeKey_self (s : State) (r : RegIdx) (k : KeyCode) : (s.takeKey r k).readV r = keyByte k :=
  s.readV_writeV_self r (keyByte k)

/-- A key code fits in a byte. -/
theorem toNat_keyByte (k : KeyCode) : (keyByte k).toNat = k.val := toNat_ofNat_of_lt (by omega)

theorem State.toNat_readV_takeKey (s : State) (r : RegIdx) (k : KeyCode) : ((s.takeKey r k).readV r).toNat = k.val := by
  rw [State.readV_takeKey_self, toNat_keyByte]

theorem sameRegsExcept_takeKey (s : State) (r : RegIdx) (k : KeyCode) : SameRegsExcept [r] s (s.takeKey r k) :=
  fun _ hq => s.readV_writeV_of_ne _ (List.ne_of_not_mem_cons hq)

theorem sameExcept_takeKey (s : State) (r : RegIdx) (k : KeyCode) : SameExcept [.v, .pc] s (s.takeKey r k) :=
  (sameExcept_writeV s r _).advance

/-! ### The key instruction and its wait, by the answer of the query -/

theorem execLdKey_of_none {s : State} (h : s.anyPressed = none) (x : RegIdx) :
    execLdKey x s = .next (s.setRun (.awaitingKey x)) := by
  simp [execLdKey, h]

theorem execLdKey_of_some {s : State} {k : KeyCode} (h : s.anyPressed = some k) (x : RegIdx) :
    execLdKey x s = .next (s.takeKey x k) := by
  simp [execLdKey, h]

theorem keyWaitStep_of_none {s : State} (h : s.anyPressed = none) (r : RegIdx) : keyWaitStep r s = .next s := by
  simp [keyWaitStep, h]

theorem keyWaitStep_of_some {s : State} {k : KeyCode} (h : s.anyPressed = some k) (r : RegIdx) :
    keyWaitStep r s = .next ((s.takeKey r k).setRun .running) := by
  simp [keyWaitStep, h]

theorem diagnostic_of_awaitingKey {s : State} {r : RegIdx} (h : s.run = .awaitingKey r) : s.diagnostic = none := by
  simp [State.diagnostic, h]

/-! ### Awaiting a key is executing the instruction again -/

theorem State.anyPressed_setRun (s : State) (q : RunState) : (s.setRun q).anyPressed = s.anyPressed := rfl

/-- The fetch depends on `pc` and memory alone. -/
theorem State.fetch_setRun (s : State) (q : RunState) : (s.setRun q).fetch = s.fetch := rfl

/-- Running and then awaiting again is awaiting all along. -/
theorem State.setRun_setRun_of_run {s : State} {q : RunState} (h : s.run = q) (u : RunState) :
    (s.setRun u).setRun q = s := by
  subst h
  rfl

theorem State.takeKey_setRun (s : State) (q : RunState) (r : RegIdx) (k : KeyCode) :
    (s.setRun q).takeKey r k = (s.takeKey r k).setRun q := rfl

/-- For an awaiting core the key instruction, executed as if running, does what the key-wait step does. -/
theorem execLdKey_setRun_running {s : State} {r : RegIdx} (h : s.run = .awaitingKey r) :
    execLdKey r (s.setRun .running) = keyWaitStep r s := by
  have hquery := s.anyPressed_setRun .running
  cases hkey : s.anyPressed with
  | none => rw [execLdKey_of_none (hquery.trans hkey), keyWaitStep_of_none hkey, State.setRun_setRun_of_run h]
  | some k => rw [execLdKey_of_some (hquery.trans hkey), keyWaitStep_of_some hkey, State.takeKey_setRun]

/-- Settles O39: the invariant keeps the awaiting core at its `Fx0A`, which the running core fetches and executes again. -/
theorem awaitingIsReexecution : Obligations.AwaitingIsReexecution := by
  intro r s hinv hrun
  have hfetch : (s.setRun .running).fetch = .ok (encode (.ldKey r)) := (s.fetch_setRun _).trans (hinv.awaiting r hrun)
  calc step (s.setRun .running) = exec (.ldKey r) (s.setRun .running) :=
        step_of_decode_ok rfl hfetch (decodeWord_encode (.ldKey r))
    _ = keyWaitStep r s := execLdKey_setRun_running hrun
    _ = step s := (step_of_awaitingKey hrun).symm

/-! ### The key instruction and the key-wait step -/

/-- Settles O36: the query answers the lowest key that is down, and the instruction takes it. -/
theorem keyInstructionTakesTheLowestKey : Obligations.KeyInstructionTakesTheLowestKey :=
  fun x k s hdown hlowest => ⟨decodeWord_encode (.ldKey x), s.takeKey x k,
    execLdKey_of_some (State.anyPressed_eq_some hdown hlowest) x, s.toNat_readV_takeKey x k, rfl,
    sameRegsExcept_takeKey s x k, sameExcept_takeKey s x k⟩

/-- Settles O37: the query answers none, and the instruction writes `run` alone. -/
theorem keyInstructionWaitsWithoutAKey : Obligations.KeyInstructionWaitsWithoutAKey :=
  fun x s hnone => ⟨_, execLdKey_of_none (s.anyPressed_eq_none_iff.2 hnone) x, rfl, sameExcept_setRun s _⟩

/-- Settles O38: the step of an awaiting core is the key-wait step, which stays or takes the key and runs. -/
theorem awaitingStepCompletesOnAKey : Obligations.AwaitingStepCompletesOnAKey := by
  intro r s hrun
  have hstep := step_of_awaitingKey hrun
  refine ⟨diagnostic_of_awaitingKey hrun, fun hnone => ?_, fun k hdown hlowest => ?_⟩
  · exact hstep.trans (keyWaitStep_of_none (s.anyPressed_eq_none_iff.2 hnone) r)
  · have hkey := State.anyPressed_eq_some hdown hlowest
    refine ⟨_, hstep.trans (keyWaitStep_of_some hkey r), s.toNat_readV_takeKey r k, rfl, rfl,
      sameRegsExcept_takeKey s r k, ?_⟩
    exact ((sameExcept_takeKey s r k).mono (by decide)).trans ((sameExcept_setRun _ _).mono (by decide))

/-! ### The skips on a key -/

/-- A byte that is a key's code is pressed exactly when that key is down (R180). -/
theorem State.isPressed_eq_key (s : State) {code : Byte} {k : KeyCode} (h : code.toNat = k.val) :
    s.isPressed code = s.key[k] := by
  rw [s.isPressed_of_lt (h ▸ k.isLt)]
  simp [h]

theorem State.pc_skipIf_not (s : State) (taken : Bool) :
    (s.skipIf (!taken)).pc = s.pc + (if taken = true then 2#16 else 4#16) := by
  cases taken <;> rfl

/-- Settles O19: each skip is `skipIf` on the query of the keypad or on its negation, and the query is the key's flag below 16
and false from there on. -/
theorem skipsOnAKey : Obligations.SkipsOnAKey := by
  refine fun x s => ⟨decodeWord_encode (.skp x), decodeWord_encode (.sknp x), _, _, rfl, rfl, sameExcept_skipIf s _,
    sameExcept_skipIf s _, fun k hk => ?_, fun hge => ?_⟩
  · rw [State.pc_skipIf_not, State.pc_skipIf, s.isPressed_eq_key hk]
    exact ⟨rfl, rfl⟩
  · rw [s.isPressed_of_ge hge]
    exact ⟨rfl, rfl⟩

/-! ### The timers -/

/-- The tone is on exactly while ST is not 0 (R217). -/
theorem State.tone_eq_true_iff (s : State) : s.tone = true ↔ s.st ≠ 0#8 := by
  rw [State.tone, decide_eq_true_iff, Nat.pos_iff_ne_zero]
  exact BitVec.toNat_ne_iff_ne (y := 0#8)

/-- Settles O40: the read writes `V[x]` as any assignment does, and each write sets its own timer. -/
theorem timersAreReadAndWritten : Obligations.TimersAreReadAndWritten :=
  fun x s => ⟨decodeWord_encode (.ldFromDT x), decodeWord_encode (.ldDT x), decodeWord_encode (.ldST x),
    s.exists_endWith x s.dt,
    ⟨_, rfl, rfl, rfl, (sameExcept_setDT s _).pair_advance⟩,
    ⟨_, rfl, rfl, State.tone_eq_true_iff _, rfl, (sameExcept_setST s _).pair_advance⟩⟩

end Sys2Proof.Machine
end

section
/-!
PROOFS. Faults, and what no step does: a fault is taken whole and by the six instructions that can raise, a halted core stays
halted, and the keypad is never written by the core (60_exceptions R206 to R212, R220).
-/
namespace Sys2Proof.Machine

/-! ### Faults -/

/-- Settles O10: the three causes, each with its code and info. -/
theorem faultEntryRecordsAndHalts : Obligations.FaultEntryRecordsAndHalts :=
  fun s a => ⟨faultTaken_faultEntry s (.outOfBounds a), faultTaken_faultEntry s .stackOverflow,
    faultTaken_faultEntry s .stackUnderflow⟩

theorem CanFault.eq_or {i : Instr} (h : CanFault i) : ∃ x y n nnn,
    i = .call nnn ∨ i = .ret ∨ i = .drw x y n ∨ i = .ldB x ∨ i = .storeRegs x ∨ i = .loadRegs x := by
  cases h with
  | store hi => cases hi <;> simp
  | _ => simp

/-- Settles O49: of the effects only fault entry halts; the others leave `run` alone or begin to wait. -/
theorem faultsArePrecise : Obligations.FaultsArePrecise := by
  intro i s t hs hexec hhalted
  obtain ⟨hrun, -⟩ | ⟨x, -, rfl⟩ | ⟨f, hi, rfl⟩ := (effect_of_exec hexec).run_cases
  · exact absurd (hrun.symm.trans hhalted) hs
  · cases hhalted
  · exact ⟨⟨f, rfl⟩, hi.eq_or⟩

/-! ### The halted core -/

theorem diagnostic_of_halted {s : State} (h : s.run = .halted) : s.diagnostic = none := by
  simp [State.diagnostic, h]

/-- Settles O9: the step of a halted core is the identity, and neither a tick nor a key event writes `run` or `fault`. -/
theorem haltedCoreStaysHalted : Obligations.HaltedCoreStaysHalted :=
  fun _ hrun => ⟨step_of_halted hrun, diagnostic_of_halted hrun, hrun, rfl, fun _ _ => ⟨hrun, rfl⟩⟩

/-! ### The keypad -/

/-- No effect of an instruction writes the keypad. -/
theorem Effect.key_eq {s t : State} {i : Instr} (h : Effect s i t) : t.key = s.key := by
  cases h <;> rfl

theorem key_eq_of_keyWaitStep {r : RegIdx} {s t : State} (h : keyWaitStep r s = .next t) : t.key = s.key := by
  obtain ⟨-, hk⟩ | ⟨k, -, hk⟩ := keyWaitStep_cases r s <;> cases hk.symm.trans h <;> rfl

/-- Settles O50, along everything a step can do. -/
theorem keypadIsReadOnlyToTheCore : Obligations.KeypadIsReadOnlyToTheCore := by
  intro s t hstep
  obtain ⟨-, hs⟩ | ⟨r, -, hs⟩ | ⟨-, -, hs⟩ | ⟨op, i, -, -, -, -, hs⟩ | ⟨op, e, -, -, -, -, hs⟩ := step_cases s <;>
    rw [hs] at hstep
  · cases hstep
    rfl
  · exact key_eq_of_keyWaitStep hstep
  · cases hstep
    rfl
  · exact (effect_of_exec hstep).key_eq
  · cases hstep
    rfl

end Sys2Proof.Machine
end

section
/-!
PROOFS. The host's operations and their sequences: the tick of the timers, the domains of `set_key` and `load`, and what every
execution keeps (60_exceptions R214 to R219, 70_reset R240 to R243).
-/
namespace Sys2Proof.Machine

/-! ### The tick -/

/-- A tick takes one off a count above 0 and leaves 0 (R216). -/
theorem toNat_tickDown (b : Byte) : (tickDown b).toNat = b.toNat - 1 := by
  unfold tickDown
  split
  · bv_omega
  · omega

theorem State.toNat_dt_tickTimer (s : State) : s.tickTimer.dt.toNat = s.dt.toNat - 1 := toNat_tickDown s.dt

theorem State.toNat_st_tickTimer (s : State) : s.tickTimer.st.toNat = s.st.toNat - 1 := toNat_tickDown s.st

theorem sameExcept_tickTimer (s : State) : SameExcept [.dt, .st] s s.tickTimer :=
  ((sameExcept_setDT s _).mono (by simp)).trans ((sameExcept_setST _ _).mono (by simp))

/-- The tone outlasts a tick exactly when the count was at least 2 (R217). -/
theorem State.tone_tickTimer (s : State) : s.tickTimer.tone = true ↔ 2 ≤ s.st.toNat := by
  rw [State.tone, decide_eq_true_iff, State.toNat_st_tickTimer]
  omega

/-- Settles O41: both timers are written by `tickDown`. -/
theorem tickCountsBothTimersDown : Obligations.TickCountsBothTimersDown :=
  fun s => ⟨s.toNat_dt_tickTimer, s.toNat_st_tickTimer, s.tone_tickTimer, sameExcept_tickTimer s⟩

/-- Settles O42, by induction on the number of ticks: the last tick takes one more off. -/
theorem timerReachesZeroAfterItsTicks : Obligations.TimerReachesZeroAfterItsTicks := by
  intro k s
  induction k with
  | zero => exact ⟨rfl, rfl⟩
  | succ k ih =>
    obtain ⟨hdt, hst⟩ := ih
    rw [Nat.repeat, State.toNat_dt_tickTimer, State.toNat_st_tickTimer, hdt, hst]
    exact ⟨Nat.sub_sub _ _ _, Nat.sub_sub _ _ _⟩

/-! ### The key event -/

theorem sameExcept_setKey (s : State) (k : KeyCode) (down : Bool) : SameExcept [.key] s (s.setKey k down) := by
  intro p hp
  have hsame := StatePart.same_self s p
  cases p with
  | key => exact absurd (List.mem_singleton_self _) hp
  | _ => exact hsame

theorem State.key_setKey (s : State) (code : Nat) (h : code < 16) (down : Bool) (k : KeyCode) :
    (s.setKey ⟨code, h⟩ down).key[k] = if k.val = code then down else s.key[k] :=
  (Vector.getElem_set h k.isLt).trans (if_congr eq_comm rfl rfl)

theorem State.setKey_setKey (s : State) (k : KeyCode) (down : Bool) :
    (s.setKey k down).setKey k down = s.setKey k down := by
  simp [State.setKey, State.setKeyFlag]

/-! ### The domains of the operations -/

theorem Session.apply_setKey_of_lt (c : Session) {code : Nat} (h : code < 16) (down : Bool) :
    c.apply (.setKey code down) = .next ⟨c.core.setKey ⟨code, h⟩ down, false⟩ :=
  dif_pos h

theorem Session.apply_setKey_of_ge (c : Session) {code : Nat} (h : 16 ≤ code) (down : Bool) :
    c.apply (.setKey code down) = .refused (.keyCodeOutOfRange code) :=
  dif_neg (Nat.not_lt.2 h)

theorem Session.apply_step {c : Session} {t : State} (h : step c.core = .next t) : c.apply .step = .next ⟨t, false⟩ := by
  simp [Session.apply, h]

/-- Only `reset` answers a fresh session (R243). -/
theorem Session.fresh_of_apply {op : Op} {c d : Session} (hop : op ≠ .reset) (h : c.apply op = .next d) :
    d.fresh = false := by
  obtain ⟨hreset, -⟩ | ⟨_, -, -, rfl⟩ | ⟨_, -, -, rfl⟩ | ⟨-, rfl⟩ | ⟨_, _, -, rfl⟩ := Session.apply_cases h
  · exact absurd hreset hop
  all_goals rfl

/-- Settles O46: the key event by its code, and `load` by whether the session is fresh. -/
theorem hostOperationsKeepTheirDomains : Obligations.HostOperationsKeepTheirDomains := by
  intro c code down rom
  refine ⟨fun h => ?_, fun h => c.apply_setKey_of_ge h down, fun h => Session.apply_load_of_not_fresh h rom,
    fun op d hop h => ?_, ⟨_, _, rfl, rfl, rfl, rfl⟩⟩
  · exact ⟨_, c.apply_setKey_of_lt h down, c.core.key_setKey code h down, sameExcept_setKey c.core _ down,
      c.core.setKey_setKey _ down⟩
  · have hfresh := Session.fresh_of_apply hop h
    exact ⟨hfresh, Session.apply_load_of_not_fresh hfresh rom⟩

/-! ### Executions, one operation at a time -/

theorem Session.run_cons_of_apply {op : Op} {c d : Session} (h : c.apply op = .next d) (rest : List Op) :
    Session.run (op :: rest) c = Session.run rest d := by
  simp [Session.run, h]

/-- An execution that answers a session ran its first operation to a session, and the rest from there. -/
theorem Session.exists_of_run_cons {op : Op} {rest : List Op} {c d : Session} (h : Session.run (op :: rest) c = .next d) :
    ∃ e, c.apply op = .next e ∧ Session.run rest e = .next d := by
  unfold Session.run at h
  split at h
  next e he => exact ⟨e, he, h⟩
  all_goals cases h

/-- Within its domain every operation but `load` answers a session. -/
theorem Session.exists_apply {op : Op} (c : Session) (hload : ∀ rom, op ≠ .load rom)
    (hkey : ∀ code down, op = .setKey code down → code < 16) : ∃ d, c.apply op = .next d := by
  cases op with
  | load rom => exact absurd rfl (hload rom)
  | step =>
    obtain ⟨t, ht⟩ := everyStateHasANextState c.core
    exact ⟨_, Session.apply_step ht⟩
  | setKey code down => exact ⟨_, c.apply_setKey_of_lt (hkey code down rfl) down⟩
  | reset | tickTimer => exact ⟨_, rfl⟩

/-- Settles O47, by induction on the operations. -/
theorem everyInterleavingRuns : Obligations.EveryInterleavingRuns := by
  intro ops
  induction ops with
  | nil => exact fun c _ => ⟨c, rfl⟩
  | cons op rest ih =>
    intro c hops
    obtain ⟨⟨hload, hkey⟩, hrest⟩ := List.forall_mem_cons.1 hops
    obtain ⟨e, he⟩ := c.exists_apply hload hkey
    rw [Session.run_cons_of_apply he]
    exact ih e hrest

/-! ### The invariant under the host's operations -/

/-- The state after reset meets the invariant, with any font (R240). -/
theorem State.inv_resetWith (font : Font) : (State.resetWith font).Inv where
  memory := State.wf_resetWith font
  pcBound := show (0x200#16).toNat ≤ 0x10FE by decide
  stackBound k := by simp [State.resetWith]
  awaiting r hr := by cases hr
  noFault _ := rfl
  someFault hr := by cases hr

/-- `reset` meets the invariant from any state: the count of draws it keeps takes no part. -/
theorem State.inv_restart (s : State) : s.restart.Inv :=
  have ⟨hmem, hpc, hstack, hawait, hnone, hsome⟩ := State.inv_resetWith s.mem.font
  ⟨hmem, hpc, hstack, hawait, hnone, hsome⟩

/-- No part that the invariant speaks of is a timer. -/
theorem State.Inv.tickTimer {s : State} (h : s.Inv) : s.tickTimer.Inv :=
  ⟨h.memory, h.pcBound, h.stackBound, h.awaiting, h.noFault, h.someFault⟩

/-- No part that the invariant speaks of is a key flag: an awaiting core takes a key in its next step only (R184). -/
theorem State.Inv.setKey {s : State} (h : s.Inv) (k : KeyCode) (down : Bool) : (s.setKey k down).Inv :=
  ⟨h.memory, h.pcBound, h.stackBound, h.awaiting, h.noFault, h.someFault⟩

/-- The copied bytes fit between 0x200 and the end of memory (R242). -/
theorem progBase_add_length_romBytes_le (rom : List Byte) : Config.progBase + (romBytes rom).length ≤ 4096 :=
  Nat.add_le_add_left (List.length_take_le Config.maxRom rom) Config.progBase

/-- `load` into a running core keeps the invariant. An awaiting core could lose its `Fx0A` to the ROM, hence the hypothesis. -/
theorem State.Inv.load {s : State} (h : s.Inv) (hrun : s.run = .running) (rom : List Byte) : (s.load rom).Inv :=
  h.of_running (by simp [hrun]) hrun rfl (Memory.wf_writeBytes h.memory (progBase_add_length_romBytes_le rom)) h.pcBound
    h.stackBound

theorem Session.inv_of_not_fresh {s : State} (h : s.Inv) : Session.Inv ⟨s, false⟩ := ⟨h, fun hfresh => nomatch hfresh⟩

/-- Every operation of the host keeps the invariant; `load` does because it runs in a fresh session only, whose core is
running. -/
theorem Session.Inv.apply {op : Op} {c d : Session} (hc : c.Inv) (h : c.apply op = .next d) : d.Inv := by
  obtain ⟨-, rfl⟩ | ⟨rom, -, hfresh, rfl⟩ | ⟨s, -, hstep, rfl⟩ | ⟨-, rfl⟩ | ⟨code, down, -, rfl⟩ := Session.apply_cases h
  · exact ⟨c.core.inv_restart, fun _ => rfl⟩
  · exact Session.inv_of_not_fresh (hc.core.load (hc.fresh hfresh) rom)
  · exact Session.inv_of_not_fresh (stepKeepsTheInvariant c.core s hc.core hstep)
  · exact Session.inv_of_not_fresh hc.core.tickTimer
  · exact Session.inv_of_not_fresh (hc.core.setKey code down)

/-- Settles O58, by induction on the operations. -/
theorem everyExecutionKeepsTheInvariant : Obligations.EveryExecutionKeepsTheInvariant := by
  intro ops
  induction ops with
  | nil =>
    intro c d hc hrun
    cases hrun
    exact hc
  | cons op rest ih =>
    intro c d hc hrun
    obtain ⟨e, he, hrest⟩ := Session.exists_of_run_cons hrun
    exact ih e d (hc.apply he) hrest

end Sys2Proof.Machine
end

section
/-!
PROOFS. Reset, load and the finished program: what `reset()` leaves in each part of the core, where `load` puts the ROM, and the
jump to itself that changes nothing (70_reset R240 to R247).
-/
namespace Sys2Proof.Machine

/-! ### Reset -/

/-- After reset no byte is listed, so each reads its reset contents (R40). -/
theorem State.read_restart (s : State) (a : Nat) : s.restart.mem.read a = s.mem.background a := rfl

theorem Memory.background_of_lt (m : Memory) {a : Nat} (h : a < 80) : m.background a = m.font[a] := dif_pos h

theorem Memory.background_of_ge (m : Memory) {a : Nat} (h : 80 ≤ a) : m.background a = 0#8 := dif_neg (Nat.not_lt.2 h)

theorem State.readV_restart (s : State) (r : RegIdx) : s.restart.readV r = 0#8 := Vector.getElem_replicate _

theorem State.getElem_stack_restart (s : State) (k : Fin 16) : s.restart.stack[k] = 0#16 := Vector.getElem_replicate _

theorem State.getElem_key_restart (s : State) (k : KeyCode) : s.restart.key[k] = false := Vector.getElem_replicate _

/-- Settles O43: row `r` of glyph `d` lies below the end of the font, where memory reads the font, and from 0x50 on it reads 0;
the framebuffer after reset is the cleared one. -/
theorem resetRestoresEveryPiece : Obligations.ResetRestoresEveryPiece := by
  intro s t
  have hglyph (d : Fin 16) (r : Fin 5) : t.mem.read (d.val * 5 + r.val) = s.mem.font[d.val * 5 + r.val] :=
    (s.read_restart _).trans (s.mem.background_of_lt (by omega))
  have hzero (a : Nat) (ha : 0x50 ≤ a) : t.mem.read a = 0#8 := (s.read_restart a).trans (s.mem.background_of_ge ha)
  exact ⟨s.readV_restart, rfl, rfl, rfl, s.getElem_stack_restart, rfl, rfl, rfl, hglyph, hzero, getPixel_clearedFb,
    s.getElem_key_restart, rfl, rfl⟩

/-- Settles O44: the restart keeps two things of the state before, its font and its count of draws. -/
theorem resetStateIsARestart : Obligations.ResetStateIsARestart :=
  fun _ hfont => congrArg State.resetWith hfont

/-- Settles O56: a session starts as the reset state with its font, which is running. -/
theorem resetMeetsTheInvariant : Obligations.ResetMeetsTheInvariant :=
  ⟨State.inv_resetWith defaultFont, fun font => ⟨State.inv_resetWith font, fun _ => rfl⟩⟩

/-! ### Load -/

theorem length_romBytes (rom : List Byte) : (romBytes rom).length = min rom.length 3584 :=
  List.length_take.trans (Nat.min_comm _ _)

theorem romTruncated_eq_true_iff (rom : List Byte) : romTruncated rom = true ↔ 3584 < rom.length := decide_eq_true_iff

/-- Each copied byte of the ROM stands at its place from 0x200 on. -/
theorem State.read_load {s : State} (hwf : s.mem.wf = true) {rom : List Byte} {k : Nat} (hk : k < rom.length)
    (hmax : k < 3584) : (s.load rom).mem.read (0x200 + k) = rom[k] := by
  have hcopied : k < (romBytes rom).length := length_romBytes rom ▸ lt_min hk hmax
  calc (s.load rom).mem.read (0x200 + k) = (romBytes rom)[k] :=
        Memory.read_writeBytes_inside hwf hcopied (progBase_add_length_romBytes_le rom)
    _ = rom[k] := List.getElem_take

theorem State.sameBytesOutside_load (s : State) (rom : List Byte) :
    SameBytesOutside 0x200 (min rom.length 3584) s (s.load rom) :=
  length_romBytes rom ▸ ⟨s.mem.font_writeBytes _ _, fun _ hb => s.mem.read_writeBytes_of_outside hb⟩

/-- Settles O45: the load writes memory alone, as one block of the ROM's first 3584 bytes, which fits below the end of memory. -/
theorem loadCopiesTheRom : Obligations.LoadCopiesTheRom :=
  fun rom s hwf => ⟨fun _ hk hmax => State.read_load hwf hk hmax, s.sameBytesOutside_load rom, sameExcept_setMem s _,
    Session.report_load_of_fresh rfl rom, romTruncated_eq_true_iff rom⟩

/-! ### The finished program -/

/-- A jump to the address of the jump itself changes nothing (R247). -/
theorem exec_jp_self {s : State} {nnn : BitVec 12} (h : s.pc = addrOf nnn) : exec (.jp nnn) s = .next s :=
  congrArg (fun a => Host.Outcome.next (s.setPc a)) h.symm

/-- Settles O55: the word at `pc` decodes back to the jump, which the step executes. -/
theorem finishedProgramStays : Obligations.FinishedProgramStays := by
  intro s ⟨hrun, nnn, hfetch, hpc⟩
  have hdecode := decodeWord_encode (.jp nnn)
  exact ⟨(step_of_decode_ok hrun hfetch hdecode).trans (exec_jp_self hpc), diagnostic_of_decode_ok hrun hfetch hdecode⟩

end Sys2Proof.Machine
end
